-- ==== Sys2Proof/Word.lean ====
section
/-! DEFINITION. The machine's word and byte (00_scope R8, R9, R11). -/

namespace Sys2Proof

/-- A word: an unsigned integer in [0, 2^32), arithmetic modulo 2^32 (R8, R9). -/
abbrev Word := BitVec 32

/-- A byte: an unsigned integer in [0, 256) (R11). -/
abbrev Byte := BitVec 8

end Sys2Proof
end

