-- ==== Sys2Proof/Config.lean ====
section
/-! DEFINITION. What the platform fixes (00_scope R7) and the free values (00_scope R13). -/

namespace Sys2Proof

/-- `size` bytes of an address space from address `base` on; both are mathematical integers (20_memory R60). -/
structure Region where
  base : Nat
  size : Nat
  deriving DecidableEq, Repr, Inhabited

/-- The access kinds MEM_OK distinguishes (00_scope R7). -/
inductive AccessKind where
  | read
  | write
  deriving DecidableEq, Repr

/-- One row of the platform's memory map: which accesses complete in a region. -/
structure MapEntry where
  region : Region
  readOk : Bool
  writeOk : Bool
  deriving DecidableEq, Repr, Inhabited

/-- The open parameters BASE, KEY_MAX_BYTES and MEM_OK (00_scope R7) as plain data. BASE is a multiple of 512, so
its bits 31:9 are what is held. MEM_OK is the predicate `Machine.memOk` reads from `memMap`; every predicate on
(address, kind) is some map (`Machine.memOk_represents`). -/
structure Platform where
  baseIndex : BitVec 23
  keyMaxBytes : Word
  memMap : List MapEntry
  deriving DecidableEq, Repr, Inhabited

/-- The platform of `Machine.State.reset`: no body, so nothing can be proved about its values. -/
opaque Config.platform : Platform

/-- The n-th free word: "the value is any value the model draws freely" (00_scope R13). No body. -/
opaque Config.freeWord : Nat → Word

/-- The n-th free byte (00_scope R13). No body. -/
opaque Config.freeByte : Nat → Byte

end Sys2Proof
end

