-- ==== Sys2Proof/Syntax.lean ====
section
/-! DEFINITION. The commands of the block, one constructor per row of spec/opcode_table.json. -/

namespace Sys2Proof

/-- The seven commands (30_encoding R83). No command has an operand field (R82). -/
inductive Instr where
  /-- B2W, 40_codec R103. -/
  | b2w
  /-- W2B, 40_codec R104. -/
  | w2b
  /-- KSCHED, 41_key_schedule R125. -/
  | ksched
  /-- ENCB, 42_block_cipher R146. -/
  | encb
  /-- DECB, 42_block_cipher R147. -/
  | decb
  /-- ENCM, 42_block_cipher R148. -/
  | encm
  /-- DECM, 42_block_cipher R149. -/
  | decm
  deriving DecidableEq, Repr

end Sys2Proof
end

