-- ==== Sys2Proof/Machine/State.lean ====
section
/-! DEFINITION. The state of the block, its data memory and its hosts' transactions (10_state), and reset (R42). -/

namespace Sys2Proof.Machine

/-- The error codes of STATUS.ERR (60_exceptions R181); codes 8 to 15 are never produced (10_state R29). -/
inductive ErrCode where
  /-- code 0, NONE: success. -/
  | none
  /-- code 1, ILLEGAL_CMD (R182). -/
  | illegalCmd
  /-- code 2, NO_KEY (R183). -/
  | noKey
  /-- code 3, KEY_TOO_LONG (R184). -/
  | keyTooLong
  /-- code 4, INVALID_LENGTH (R185). -/
  | invalidLength
  /-- code 5, OFFSET_RANGE (R186). -/
  | offsetRange
  /-- code 6, ADDR_RANGE (R187). -/
  | addrRange
  /-- code 7, BUS_ERROR (R188). -/
  | busError
  deriving DecidableEq, Repr

/-- The fields of STATUS (10_state R25); `statusWord` lays them out. -/
structure Status where
  busy : Bool
  done : Bool
  keyValid : Bool
  err : ErrCode
  deriving DecidableEq, Repr

/-- The four words of one 16-byte block (42_block_cipher R141). -/
structure Block where
  a : Word
  b : Word
  c : Word
  d : Word
  deriving DecidableEq, Repr

/-- The subkey file S[0..43] (10_state R38): T = 44 words. -/
abbrev Subkeys := Vector Word 44

/-- The 44 free words drawn from position `k` on: the content of S where the spec leaves it unspecified. -/
@[irreducible] def freeSubkeys (k : Nat) : Subkeys := Vector.ofFn fun i => Config.freeWord (k + i.val)

/-- Data memory (20_memory R50): addresses strictly rising, no entry equal to what an unlisted byte reads as. -/
abbrev Memory := List Host.Cell

/-- The width of a host access to the register block (10_state R22). -/
inductive AccessSize where
  | byte
  | half
  | word
  deriving DecidableEq, Repr

/-- One bus transaction of a host (00_scope R14): a register-block access at a host-bus address, or a data-memory
byte access. -/
inductive HostOp where
  | regWrite (addr : Word) (size : AccessSize) (v : Word)
  | regRead (addr : Word) (size : AccessSize)
  | memWrite (addr : Word) (b : Byte)
  | memRead (addr : Word)
  deriving DecidableEq, Repr

/-- Who moves: a host with one transaction, the engine (20_memory R63), or reset (70_reset R210). -/
inductive Turn where
  | host (op : HostOp)
  | engine
  | reset
  deriving DecidableEq, Repr

/-- The bytes one started command reads and writes (20_memory R64); `command` is `none` for an illegal word.
`raced`: a host has accessed one of them in a way R64 forbids. -/
structure Footprint where
  command : Option Instr
  reads : Region
  writes : Region
  raced : Bool
  deriving DecidableEq, Repr

/-- The registers of the block (10_state R21). -/
inductive RegName where
  | cmd
  | status
  | keyAddr
  | keyLen
  | srcAddr
  | dstAddr
  | len
  | offset
  | outLen
  | word
  | blkA
  | blkB
  | blkC
  | blkD
  | param
  | keyMax
  | subkey (i : Fin 44)
  deriving DecidableEq, Repr

/-- The state. Fields from `status` to `mem` are the spec's (10_state R20); `platform` holds the open parameters
(00_scope R7), which no step changes; `agenda`, `readData`, `unsynced` and `freeCount` are the model's own. -/
structure State where
  /-- BASE, KEY_MAX_BYTES, MEM_OK (00_scope R7). -/
  platform : Platform
  /-- STATUS (10_state R25). -/
  status : Status
  /-- KEY_ADDR (R30). -/
  keyAddr : Word
  /-- KEY_LEN (R30). -/
  keyLen : Word
  /-- SRC_ADDR (R31). -/
  srcAddr : Word
  /-- DST_ADDR (R31). -/
  dstAddr : Word
  /-- LEN (R31). -/
  len : Word
  /-- OFFSET (R31). -/
  offset : Word
  /-- OUT_LEN (R32). -/
  outLen : Word
  /-- WORD (R33). -/
  word : Word
  /-- BLK_A, BLK_B, BLK_C, BLK_D (R34). -/
  blk : Block
  /-- S[0..43] (R38). -/
  subkeys : Subkeys
  /-- PENDING (R40). -/
  pending : Word
  /-- Data memory (20_memory R50). -/
  mem : Memory
  /-- The turns still to come, first one next; with none left the engine moves. -/
  agenda : List Turn
  /-- What the last host read returned. -/
  readData : Word
  /-- The commands started since a STATUS read last showed BUSY = 0, latest first (20_memory R64, R65). -/
  unsynced : List Footprint
  /-- How many free values have been drawn. -/
  freeCount : Nat
  deriving DecidableEq, Repr

/-- No constructor: no behaviour of this block is stuck (93_implementation_defined), so no step faults. -/
inductive Fault where
  deriving DecidableEq, Repr

/-- Why an instruction has no meaning. -/
inductive Refusal where
  /-- An arm of `exec` that has no meaning yet, by its mnemonic; raised by no arm of this model; safe. -/
  | notModelled (mnemonic : String)
  deriving DecidableEq, Repr

/-- The state after reset on platform `p`, with nothing for the hosts to do (10_state R42). -/
def State.resetOn (p : Platform) : State where
  platform := p
  status := ⟨false, false, false, .none⟩
  keyAddr := 0
  keyLen := 0
  srcAddr := 0
  dstAddr := 0
  len := 0
  offset := 0
  outLen := 0
  word := 0
  blk := ⟨0, 0, 0, 0⟩
  subkeys := freeSubkeys 0
  pending := 0
  mem := []
  agenda := []
  readData := 0
  unsynced := []
  freeCount := 44

/-- The machine right after reset (10_state R42), on the platform nothing is known of. -/
def State.reset : State := State.resetOn Config.platform

end Sys2Proof.Machine
end

