-- ==== Sys2Proof/Machine/Ops.lean ====
section
/-! DEFINITION. The operations the commands share: memory, MEM_OK, free values, and how a command ends. -/

namespace Sys2Proof.Machine

/-- What a step or a command answers. -/
abbrev Result := Host.Outcome State Fault Refusal

/-- An address of the region: base ≤ a < base + size. -/
def regionHas (r : Region) (a : Nat) : Bool := decide (r.base ≤ a) && decide (a < r.base + r.size)

/-- The part of a region that exists: addresses are below 2^32 (20_memory R50). -/
def clipRegion (r : Region) : Region := ⟨r.base, min r.size (2 ^ 32 - r.base)⟩

/-! ### Data memory (20_memory R50) -/

/-- What a byte no one has written reads as (DESIGN CHOICE, entry 2). -/
def Memory.unlisted : Byte := 0

/-- The byte at `a`. -/
def Memory.read : Memory → Nat → Byte
  | [], _ => Memory.unlisted
  | c :: m, a => if c.1 = a then c.2 else Memory.read m a

/-- The cells of `m` other than those of address `a`. -/
def Memory.erase (m : Memory) (a : Nat) : Memory := m.filter fun c => c.1 != a

/-- Put the cell (a, v) before the first cell of a higher address. -/
def Memory.insert : Memory → Nat → Byte → Memory
  | [], a, v => [(a, v)]
  | c :: m, a, v => if a < c.1 then (a, v) :: c :: m else c :: Memory.insert m a v

/-- Write byte `v` at `a`, keeping the canonical form. -/
def Memory.write (m : Memory) (a : Nat) (v : Byte) : Memory :=
  if v = Memory.unlisted then m.erase a else (m.erase a).insert a v

/-- The canonical form: addresses below 2^32 and strictly rising, no cell equal to what an unlisted byte reads as. -/
abbrev Memory.wf (m : Memory) : Prop :=
  m.Pairwise (fun c d => c.1 < d.1) ∧ ∀ c ∈ m, c.1 < 2 ^ 32 ∧ c.2 ≠ Memory.unlisted

/-- Write the bytes `bs` at `a`, `a + 1`, … in ascending order. -/
def Memory.writeList (m : Memory) (a : Nat) : List Byte → Memory
  | [] => m
  | b :: bs => Memory.writeList (m.write a b) (a + 1) bs

/-- The `n` bytes at `a`, `a + 1`, …. -/
def Memory.readList (m : Memory) (a : Nat) : Nat → List Byte
  | 0 => []
  | n + 1 => m.read a :: Memory.readList m (a + 1) n

/-- The `n` bytes at `base` become free bytes, the `i`-th being free byte number `k + i`. -/
def Memory.scramble (m : Memory) (base k : Nat) : Nat → Memory
  | 0 => m
  | n + 1 => (Memory.scramble m base k n).write (base + n) (Config.freeByte (k + n))

/-! ### MEM_OK and the engine's byte accesses (20_memory R57, R61) -/

/-- Whether the row lets an access of this kind complete. -/
def entryAllows (e : MapEntry) : AccessKind → Bool
  | .read => e.readOk
  | .write => e.writeOk

/-- MEM_OK(addr, kind) (00_scope R7): what the first row of the map that holds the address says; an address of no
row does not answer. -/
def memOk (p : Platform) (a : Nat) (k : AccessKind) : Bool :=
  match p.memMap.find? fun e => regionHas e.region a with
  | some e => entryAllows e k
  | none => false

/-- `MemRead(addr, 1)` (00_scope R12). -/
def loadByte (p : Platform) (m : Memory) (a : Nat) : Except ErrCode Byte :=
  if memOk p a .read then .ok (m.read a) else .error .busError

/-- `MemWrite(addr, 1, v)` (00_scope R12). -/
def storeByte (p : Platform) (m : Memory) (a : Nat) (v : Byte) : Except ErrCode Memory :=
  if memOk p a .write then .ok (m.write a v) else .error .busError

/-- Byte `k` of the `len`-byte buffer at `base`; at index ≥ `len` the constant 0, which is no access (20_memory R62). -/
def fetchByte (p : Platform) (m : Memory) (base len k : Nat) : Except ErrCode Byte :=
  if k < len then loadByte p m (base + k) else .ok 0

/-- `n` bytes of a buffer from index `k` on, read in ascending order (20_memory R58). -/
def fetchBytes (p : Platform) (m : Memory) (base len : Nat) : Nat → Nat → Except ErrCode (List Byte)
  | _, 0 => .ok []
  | k, n + 1 =>
    match fetchByte p m base len k with
    | .error e => .error e
    | .ok b =>
      match fetchBytes p m base len (k + 1) n with
      | .error e => .error e
      | .ok bs => .ok (b :: bs)

/-- Store bytes at `a`, `a + 1`, … in ascending order (20_memory R58). -/
def storeBytes (p : Platform) (m : Memory) (a : Nat) : List Byte → Except ErrCode Memory
  | [] => .ok m
  | b :: bs =>
    match storeByte p m a b with
    | .error e => .error e
    | .ok m' => storeBytes p m' (a + 1) bs

/-! ### State updates -/

/-- WORD <- v. -/
def State.setWord (v : Word) (s : State) : State := { s with word := v }

/-- BLK_A..BLK_D <- b. -/
def State.setBlk (b : Block) (s : State) : State := { s with blk := b }

/-- Data memory <- m. -/
def State.setMem (m : Memory) (s : State) : State := { s with mem := m }

/-- OUT_LEN <- v. -/
def State.setOutLen (v : Word) (s : State) : State := { s with outLen := v }

/-- S[0..43] <- S'. -/
def State.setSubkeys (S' : Subkeys) (s : State) : State := { s with subkeys := S' }

/-- STATUS.KEY_VALID <- b. -/
def State.setKeyValid (b : Bool) (s : State) : State := { s with status := { s.status with keyValid := b } }

/-- S[0..43] becomes unspecified: 44 free words (10_state R38, entry 3). -/
def State.loseSubkeys (s : State) : State :=
  { s with subkeys := freeSubkeys s.freeCount, freeCount := s.freeCount + 44 }

/-- Every byte of the region that exists becomes unspecified: free bytes (20_memory R61, entry 13). -/
def State.loseBytes (r : Region) (s : State) : State :=
  { s with mem := Memory.scramble s.mem r.base s.freeCount (clipRegion r).size,
           freeCount := s.freeCount + (clipRegion r).size }

/-! ### How a command ends (60_exceptions R191) -/

/-- Completion: ERR <- code, BUSY <- 0, DONE <- 1; KEY_VALID and OUT_LEN are those the command left (R191). -/
def State.finish (e : ErrCode) (s : State) : State :=
  { s with status := { s.status with busy := false, done := true, err := e } }

/-- The end of the pseudocode, without error. -/
def succeed (s : State) : Result := .next (s.finish .none)

/-- `raise E`: the command ends at once with error E (00_scope R12, 60_exceptions R180); nothing is saved but the
code and control goes nowhere (R189, R194). -/
def raise (e : ErrCode) (s : State) : Result := .next (s.finish e)

/-- `raise BUS_ERROR` of a command that writes the region `r`: the region is then unspecified (20_memory R61). -/
def raiseBusError (r : Region) (s : State) : Result := raise .busError (s.loseBytes r)

end Sys2Proof.Machine
end

