-- ==== Sys2Proof/Machine/Operands.lean ====
section
/-! DEFINITION. The fixed operands of the commands: their register-only checks (60_exceptions R192), the regions they
read and write (20_memory R60, R61), and the register map (10_state R21). -/

namespace Sys2Proof.Machine

/-- ceil(len / 16): how many blocks a message of `len` bytes pads to (42_block_cipher R145). -/
def blockCount (len : Nat) : Nat := (len + 15) / 16

/-- The region passes address 2^32 (20_memory R60). -/
def passesEnd (base size : Nat) : Bool := decide (2 ^ 32 < base + size)

/-- The checks of B2W (40_codec R103). -/
def b2wCheck (s : State) : Option ErrCode :=
  if passesEnd s.srcAddr.toNat s.len.toNat then some .addrRange else none

/-- The checks of W2B, in order (40_codec R104). -/
def w2bCheck (s : State) : Option ErrCode :=
  if s.len.toNat < s.offset.toNat + 4 then some .offsetRange
  else if passesEnd s.dstAddr.toNat s.len.toNat then some .addrRange else none

/-- The checks of KSCHED, in order (41_key_schedule R125). -/
def kschedCheck (s : State) : Option ErrCode :=
  if s.platform.keyMaxBytes.toNat < s.keyLen.toNat then some .keyTooLong
  else if passesEnd s.keyAddr.toNat s.keyLen.toNat then some .addrRange else none

/-- The check of ENCB (42_block_cipher R146). -/
def encbCheck (s : State) : Option ErrCode := if s.status.keyValid then none else some .noKey

/-- The check of DECB (42_block_cipher R147). -/
def decbCheck (s : State) : Option ErrCode := if s.status.keyValid then none else some .noKey

/-- The checks of ENCM, in order (42_block_cipher R148). -/
def encmCheck (s : State) : Option ErrCode :=
  if s.status.keyValid = false then some .noKey
  else if 0xFFFFFFF0 < s.len.toNat then some .invalidLength
  else if passesEnd s.srcAddr.toNat s.len.toNat then some .addrRange
  else if passesEnd s.dstAddr.toNat (16 * blockCount s.len.toNat) then some .addrRange else none

/-- The checks of DECM, in order (42_block_cipher R149). -/
def decmCheck (s : State) : Option ErrCode :=
  if s.status.keyValid = false then some .noKey
  else if s.len.toNat % 16 ≠ 0 then some .invalidLength
  else if passesEnd s.srcAddr.toNat s.len.toNat then some .addrRange
  else if passesEnd s.dstAddr.toNat s.len.toNat then some .addrRange else none

/-- Conditions 2 to 6 of 60_exceptions R192 for a command: they "depend only on registers and are made before any
memory access". -/
def commandCheck : Instr → State → Option ErrCode
  | .b2w => b2wCheck
  | .w2b => w2bCheck
  | .ksched => kschedCheck
  | .encb => encbCheck
  | .decb => decbCheck
  | .encm => encmCheck
  | .decm => decmCheck

/-- The written region of a command (20_memory R61). -/
def writtenRegion : Instr → State → Region
  | .b2w, _ => ⟨0, 0⟩
  | .w2b, s => ⟨s.dstAddr.toNat + s.offset.toNat, 4⟩
  | .ksched, _ => ⟨0, 0⟩
  | .encb, _ => ⟨0, 0⟩
  | .decb, _ => ⟨0, 0⟩
  | .encm, s => ⟨s.dstAddr.toNat, 16 * blockCount s.len.toNat⟩
  | .decm, s => ⟨s.dstAddr.toNat, s.len.toNat⟩

/-- The bytes a command reads (40_codec R103, 41_key_schedule R125, 42_block_cipher R148, R149). -/
def readRegion : Instr → State → Region
  | .b2w, s => ⟨s.srcAddr.toNat + s.offset.toNat, min 4 (s.len.toNat - s.offset.toNat)⟩
  | .w2b, _ => ⟨0, 0⟩
  | .ksched, s => ⟨s.keyAddr.toNat, s.keyLen.toNat⟩
  | .encb, _ => ⟨0, 0⟩
  | .decb, _ => ⟨0, 0⟩
  | .encm, s => ⟨s.srcAddr.toNat, s.len.toNat⟩
  | .decm, s => ⟨s.srcAddr.toNat, s.len.toNat⟩

/-! ### The register map (10_state R21) -/

/-- The byte offset of a register in the register block. -/
def regOffset : RegName → BitVec 9
  | .cmd => 0x000
  | .status => 0x004
  | .keyAddr => 0x008
  | .keyLen => 0x00C
  | .srcAddr => 0x010
  | .dstAddr => 0x014
  | .len => 0x018
  | .offset => 0x01C
  | .outLen => 0x020
  | .word => 0x024
  | .blkA => 0x030
  | .blkB => 0x034
  | .blkC => 0x038
  | .blkD => 0x03C
  | .param => 0x040
  | .keyMax => 0x044
  | .subkey i => 0x100 + BitVec.ofNat 9 (4 * i.val)

/-- The register at an offset; `none` where the offset is reserved or no multiple of 4. -/
def regAt (off : BitVec 9) : Option RegName :=
  if off = 0x000 then some .cmd
  else if off = 0x004 then some .status
  else if off = 0x008 then some .keyAddr
  else if off = 0x00C then some .keyLen
  else if off = 0x010 then some .srcAddr
  else if off = 0x014 then some .dstAddr
  else if off = 0x018 then some .len
  else if off = 0x01C then some .offset
  else if off = 0x020 then some .outLen
  else if off = 0x024 then some .word
  else if off = 0x030 then some .blkA
  else if off = 0x034 then some .blkB
  else if off = 0x038 then some .blkC
  else if off = 0x03C then some .blkD
  else if off = 0x040 then some .param
  else if off = 0x044 then some .keyMax
  else if off.toNat % 4 = 0 then
    if h : 0x100 ≤ off.toNat ∧ (off.toNat - 0x100) / 4 < 44 then some (.subkey ⟨(off.toNat - 0x100) / 4, h.2⟩)
    else none
  else none

/-- BASE (00_scope R7): a multiple of 512. -/
def baseAddr (p : Platform) : Word := p.baseIndex ++ (0 : BitVec 9)

/-- BASE + offset(NAME) (30_encoding R89). -/
def regAddr (p : Platform) (r : RegName) : Word := baseAddr p + (regOffset r).setWidth 32

/-- The offset of a host-bus address in the register block BASE .. BASE+0x1FF; `none` outside it (20_memory R51). -/
def blockOffset (p : Platform) (addr : Word) : Option (BitVec 9) :=
  if addr.extractLsb' 9 23 = p.baseIndex then some (addr.extractLsb' 0 9) else none

/-- PARAM: bits 7:0 = W, 15:8 = R, 23:16 = T, 31:24 = BLOCK_BYTES (10_state R36). -/
def paramWord : Word := 0x102C1420

end Sys2Proof.Machine
end

