-- ==== Sys2Proof/Machine/Codec.lean ====
section
/-! DEFINITION. The word/byte codec and its commands B2W and W2B (40_codec). -/

namespace Sys2Proof.Machine

/-- `byteAt(buf, k)`: 0 beyond the buffer's end (R100). -/
def byteAt (buf : List Byte) (k : Nat) : Byte := buf.getD k 0

/-- `bytesToWord(buf, off)`: byte i contributes byte << 8i (R100). -/
def bytesToWord (buf : List Byte) (off : Nat) : Word :=
  (byteAt buf off).setWidth 32 ||| (byteAt buf (off + 1)).setWidth 32 <<< 8
    ||| (byteAt buf (off + 2)).setWidth 32 <<< 16 ||| (byteAt buf (off + 3)).setWidth 32 <<< 24

/-- `wordToBytes(w)` (R101). -/
def wordToBytes (w : Word) : List Byte :=
  [w.extractLsb' 0 8, w.extractLsb' 8 8, w.extractLsb' 16 8, w.extractLsb' 24 8]

/-- B2W: "read one little-endian word from a memory buffer into WORD" (R103). -/
def execB2w (s : State) : Result :=
  match b2wCheck s with
  | some e => raise e s
  | none =>
    match fetchBytes s.platform s.mem s.srcAddr.toNat s.len.toNat s.offset.toNat 4 with
    | .error e => raise e s
    | .ok bs => succeed (s.setWord (bytesToWord bs 0))

/-- W2B: "write WORD as 4 little-endian bytes into a memory buffer" (R104). -/
def execW2b (s : State) : Result :=
  match w2bCheck s with
  | some e => raise e s
  | none =>
    match storeBytes s.platform s.mem (s.dstAddr.toNat + s.offset.toNat) (wordToBytes s.word) with
    | .error _ => raiseBusError (writtenRegion .w2b s) s
    | .ok m => succeed (s.setMem m)

end Sys2Proof.Machine
end

