-- ==== Sys2Proof/Machine/Rotate.lean ====
section
/-! DEFINITION. Rotations by any integer amount (00_scope R10). -/

namespace Sys2Proof.Machine

/-- `rotl(x, n)`: the amount is n mod 32, for any integer n (R10). -/
def rotl (x : Word) (n : Int) : Word :=
  if (n % 32).toNat = 0 then x else x <<< (n % 32).toNat ||| x >>> (32 - (n % 32).toNat)

/-- `rotr(x, n)`: the amount is n mod 32, for any integer n (R10). -/
def rotr (x : Word) (n : Int) : Word :=
  if (n % 32).toNat = 0 then x else x >>> (n % 32).toNat ||| x <<< (32 - (n % 32).toNat)

end Sys2Proof.Machine
end

