-- ==== Sys2Proof/Machine/BlockCipher.lean ====
section
/-! DEFINITION. The round transform and the commands ENCB, DECB, ENCM, DECM (42_block_cipher). -/

namespace Sys2Proof.Machine

/-- f(x) = rotl(x * (2*x + 1), 5) (R140). -/
def quad (x : Word) : Word := rotl (x * (2 * x + 1)) 5

/-- S[i]. -/
def subkeyAt (S : Subkeys) (i : Nat) : Word := if h : i < 44 then S[i] else 0

/-- `blockToWords(buf, p)` (R141). -/
def blockToWords (buf : List Byte) (p : Nat) : Block :=
  ⟨bytesToWord buf p, bytesToWord buf (p + 4), bytesToWord buf (p + 8), bytesToWord buf (p + 12)⟩

/-- `wordsToBlock(A, B, C, D)` (R141). -/
def wordsToBlock (x : Block) : List Byte :=
  wordToBytes x.a ++ wordToBytes x.b ++ wordToBytes x.c ++ wordToBytes x.d

/-- R = 20, the round count (00_scope R6). -/
def roundCount : Nat := 20

/-- Pre-whitening: B += S[0], D += S[1] (R142). -/
def encStart (S : Subkeys) (x : Block) : Block := ⟨x.a, x.b + subkeyAt S 0, x.c, x.d + subkeyAt S 1⟩

/-- Round j: A = rotl(A xor t, u mod 32) + S[2j], C = rotl(C xor u, t mod 32) + S[2j+1], then
(A, B, C, D) = (B, C, D, A), with t = f(B), u = f(D) (R142). -/
def encRound (S : Subkeys) (j : Nat) (x : Block) : Block where
  a := x.b
  b := rotl (x.c ^^^ quad x.d) ((quad x.b).toNat % 32 : Nat) + subkeyAt S (2 * j + 1)
  c := x.d
  d := rotl (x.a ^^^ quad x.b) ((quad x.d).toNat % 32 : Nat) + subkeyAt S (2 * j)

/-- Rounds 1 .. n in ascending order. -/
def encRounds (S : Subkeys) : Nat → Block → Block
  | 0, x => x
  | n + 1, x => encRound S (n + 1) (encRounds S n x)

/-- Post-whitening: A += S[2R+2], C += S[2R+3] (R142). -/
def encEnd (S : Subkeys) (x : Block) : Block :=
  ⟨x.a + subkeyAt S (2 * roundCount + 2), x.b, x.c + subkeyAt S (2 * roundCount + 3), x.d⟩

/-- `encWords(S, A, B, C, D)` (R142). -/
def encWords (S : Subkeys) (x : Block) : Block := encEnd S (encRounds S roundCount (encStart S x))

/-- C -= S[2R+3], A -= S[2R+2] (R143). -/
def decStart (S : Subkeys) (x : Block) : Block :=
  ⟨x.a - subkeyAt S (2 * roundCount + 2), x.b, x.c - subkeyAt S (2 * roundCount + 3), x.d⟩

/-- Round j after (A, B, C, D) = (D, A, B, C): with u = f(D), t = f(B), C = rotr(C - S[2j+1], t mod 32) xor u and
A = rotr(A - S[2j], u mod 32) xor t (R143). -/
def decUnmix (S : Subkeys) (j : Nat) (x : Block) : Block where
  a := rotr (x.a - subkeyAt S (2 * j)) ((quad x.d).toNat % 32 : Nat) ^^^ quad x.b
  b := x.b
  c := rotr (x.c - subkeyAt S (2 * j + 1)) ((quad x.b).toNat % 32 : Nat) ^^^ quad x.d
  d := x.d

/-- Round j of decryption (R143). -/
def decRound (S : Subkeys) (j : Nat) (x : Block) : Block := decUnmix S j ⟨x.d, x.a, x.b, x.c⟩

/-- Rounds n .. 1 in descending order. -/
def decRounds (S : Subkeys) : Nat → Block → Block
  | 0, x => x
  | n + 1, x => decRounds S n (decRound S (n + 1) x)

/-- D -= S[1], B -= S[0] (R143). -/
def decEnd (S : Subkeys) (x : Block) : Block := ⟨x.a, x.b - subkeyAt S 0, x.c, x.d - subkeyAt S 1⟩

/-- `decWords(S, A, B, C, D)` (R143). -/
def decWords (S : Subkeys) (x : Block) : Block := decEnd S (decRounds S roundCount (decStart S x))

/-- pad(p): zero bytes up to the next multiple of 16 (R145). -/
def pad (p : List Byte) : List Byte := p ++ List.replicate (16 * blockCount p.length - p.length) 0

/-! ### Block commands -/

/-- ENCB: "encrypt the block held in the block registers" (R146). -/
def execEncb (s : State) : Result :=
  match encbCheck s with
  | some e => raise e s
  | none => succeed (s.setBlk (encWords s.subkeys s.blk))

/-- DECB: "decrypt the block held in the block registers" (R147). -/
def execDecb (s : State) : Result :=
  match decbCheck s with
  | some e => raise e s
  | none => succeed (s.setBlk (decWords s.subkeys s.blk))

/-! ### Message commands -/

/-- Block k of a message command: its 16 source bytes (zeros at index ≥ len), the block function, its 16 destination
bytes (R148, R149). -/
def transformBlock (f : Block → Block) (p : Platform) (src len dst k : Nat) (m : Memory) : Except ErrCode Memory :=
  match fetchBytes p m src len (16 * k) 16 with
  | .error e => .error e
  | .ok bs => storeBytes p m (dst + 16 * k) (wordsToBlock (f (blockToWords bs 0)))

/-- Blocks 0 .. n-1 in ascending order, each seeing what the earlier ones wrote (20_memory R58, R59). -/
def transformBlocks (f : Block → Block) (p : Platform) (src len dst : Nat) : Nat → Memory → Except ErrCode Memory
  | 0, m => .ok m
  | n + 1, m =>
    match transformBlocks f p src len dst n m with
    | .error e => .error e
    | .ok m' => transformBlock f p src len dst n m'

/-- ENCM: "pad a message and encrypt it block by block, memory to memory" (R148). -/
def execEncm (s : State) : Result :=
  match encmCheck s with
  | some e => raise e s
  | none =>
    match transformBlocks (encWords s.subkeys) s.platform s.srcAddr.toNat s.len.toNat s.dstAddr.toNat
        (blockCount s.len.toNat) s.mem with
    | .error _ => raiseBusError (writtenRegion .encm s) s
    | .ok m => succeed ((s.setMem m).setOutLen (BitVec.ofNat 32 (16 * blockCount s.len.toNat)))

/-- DECM: "decrypt a message block by block, memory to memory" (R149). -/
def execDecm (s : State) : Result :=
  match decmCheck s with
  | some e => raise e s
  | none =>
    match transformBlocks (decWords s.subkeys) s.platform s.srcAddr.toNat s.len.toNat s.dstAddr.toNat
        (s.len.toNat / 16) s.mem with
    | .error _ => raiseBusError (writtenRegion .decm s) s
    | .ok m => succeed ((s.setMem m).setOutLen s.len)

end Sys2Proof.Machine
end

