-- ==== Sys2Proof/Machine/KeySchedule.lean ====
section
/-! DEFINITION. The key schedule KS and its command KSCHED (41_key_schedule). -/

namespace Sys2Proof.Machine

/-- P32 (R120). -/
def p32 : Word := 0xB7E15163

/-- Q32 (R120). -/
def q32 : Word := 0x9E3779B9

/-- T = 2R+4, the subkey count (00_scope R6). -/
def subkeyCount : Nat := 44

/-- Word i of the initial table: S[0] = P32, S[i] = S[i-1] + Q32 (R120). -/
def initialWord : Nat → Word
  | 0 => p32
  | i + 1 => initialWord i + q32

/-- The initial table S[0..43] (R120). -/
def initialSubkeys : Subkeys := Vector.ofFn fun i => initialWord i.val

/-- c = max(1, ceil(b/4)), the number of key words of a b-byte key (R121). -/
def keyWordCount (b : Nat) : Nat := max 1 ((b + 3) / 4)

/-- Append key byte number `i`: L[i/4] = (L[i/4] << 8) + byte (R122). -/
def packByte (i : Nat) (b : Byte) (L : List Word) : List Word :=
  L.set (i / 4) ((L.getD (i / 4) 0 <<< 8) + b.setWidth 32)

/-- Append the key bytes from number `i` on (R122). -/
def packFrom : Nat → List Byte → List Word → List Word
  | _, [], L => L
  | i, b :: K, L => packFrom (i + 1) K (packByte i b L)

/-- The key words L[0..c-1] of a key: big-endian accumulation within a word (R122). -/
def keyWords (K : List Byte) : List Word := packFrom 0 K (List.replicate (keyWordCount K.length) 0)

/-- What the mixing loop holds (R123): the table, the key words, the accumulators and the indices. -/
structure Mix where
  S : Subkeys
  L : List Word
  A : Word
  B : Word
  i : Fin 44
  j : Nat
  deriving DecidableEq, Repr

/-- The updated accumulator A = rotl(S[i] + A + B, 3) (R123). -/
def mixA (m : Mix) : Word := rotl (m.S[m.i] + m.A + m.B) 3

/-- The updated accumulator B = rotl(L[j] + A + B, (A + B) mod 32), with the A just computed (R123). -/
def mixB (A : Word) (m : Mix) : Word := rotl (m.L.getD m.j 0 + A + m.B) ((A + m.B).toNat % 32 : Nat)

/-- The state after an iteration whose new accumulators are A and B (R123). -/
def mixNext (A B : Word) (m : Mix) : Mix where
  S := m.S.set m.i A
  L := m.L.set m.j B
  A := A
  B := B
  i := m.i + 1
  j := (m.j + 1) % m.L.length

/-- One iteration of the mixing loop (R123). -/
def mixStep (m : Mix) : Mix := mixNext (mixA m) (mixB (mixA m) m) m

/-- `n` iterations. -/
def mixLoop : Nat → Mix → Mix
  | 0, m => m
  | n + 1, m => mixLoop n (mixStep m)

/-- v = 3 * max(c, T) (R123). -/
def mixCount (c : Nat) : Nat := 3 * max c subkeyCount

/-- KS(K): the table the mixing loop leaves (R124). -/
def keySchedule (K : List Byte) : Subkeys :=
  (mixLoop (mixCount (keyWords K).length) ⟨initialSubkeys, keyWords K, 0, 0, 0, 0⟩).S

/-- A KSCHED that ends with an error: KEY_VALID = 0 and S unspecified (R125). -/
def kschedFail (e : ErrCode) (s : State) : Result := raise e s.loseSubkeys

/-- KSCHED with KEY_VALID already 0: the checks, the key bytes, then S <- KS(K) and KEY_VALID <- 1 (R125). -/
def kschedBody (s : State) : Result :=
  match kschedCheck s with
  | some e => kschedFail e s
  | none =>
    match fetchBytes s.platform s.mem s.keyAddr.toNat s.keyLen.toNat 0 s.keyLen.toNat with
    | .error e => kschedFail e s
    | .ok K => succeed ((s.setSubkeys (keySchedule K)).setKeyValid true)

/-- KSCHED: "read the key from memory and load S with KS(key)" (R125). -/
def execKsched (s : State) : Result := kschedBody (s.setKeyValid false)

end Sys2Proof.Machine
end

