-- ==== Sys2Proof/Machine/Flags.lean ====
section
/-! DEFINITION. STATUS as the word a host reads (10_state R25), and the error codes (60_exceptions R181). -/

namespace Sys2Proof.Machine

/-- code(E) (60_exceptions R181). -/
def errCode : ErrCode → BitVec 4
  | .none => 0
  | .illegalCmd => 1
  | .noKey => 2
  | .keyTooLong => 3
  | .invalidLength => 4
  | .offsetRange => 5
  | .addrRange => 6
  | .busError => 7

/-- STATUS: bit 0 BUSY, bit 1 DONE, bit 2 KEY_VALID, bits 11:8 ERR, every other bit 0 (10_state R25). -/
def statusWord (t : Status) : Word :=
  (0 : BitVec 20) ++ errCode t.err ++ (0 : BitVec 5) ++ BitVec.ofBool t.keyValid ++ BitVec.ofBool t.done
    ++ BitVec.ofBool t.busy

end Sys2Proof.Machine
end

