-- ==== Sys2Proof/WellFormed.lean ====
section
/-! DEFINITION. Which command words, and which instructions, are well formed (30_encoding R81 to R83). -/

namespace Sys2Proof

/-- Field RSV, bits 31:8 of a command word (R81). -/
def wordRsv (w : Word) : BitVec 24 := w.extractLsb' 8 24

/-- Field OPC, bits 7:0 of a command word (R81). -/
def wordOpc (w : Word) : BitVec 8 := w.extractLsb' 0 8

/-- "RSV = 0": the reserved field must be 0 (R81). -/
def rsvIsZero (w : Word) : Bool := wordRsv w == 0

/-- OPC is one of the seven opcodes 0x01 .. 0x07 (R83). -/
def opcIsAssigned (w : Word) : Bool := decide (0x01 ≤ wordOpc w) && decide (wordOpc w ≤ 0x07)

/-- A command word is well formed when both fields are; every other word is illegal (R85). -/
def wordWellFormed (w : Word) : Bool := rsvIsZero w && opcIsAssigned w

/-- Every instruction is well formed: "A command word has no immediate and no register-number field" (R82), so
an instruction has no field that a check could refuse. -/
def Instr.wellFormed : Instr → Bool
  | .b2w => true
  | .w2b => true
  | .ksched => true
  | .encb => true
  | .decb => true
  | .encm => true
  | .decm => true

end Sys2Proof
end

