-- ==== Sys2Proof/Decode.lean ====
section
/-! DEFINITION. The decoder, total on every command word, and the encoder (30_encoding R80 to R86). -/

namespace Sys2Proof

/-- Why a word is ILLEGAL (30_encoding R84, R85). -/
inductive Illegal where
  /-- RSV ≠ 0. -/
  | reservedBits
  /-- OPC is 0x00 or 0x08 .. 0xFF. -/
  | opcode (opc : BitVec 8)
  /-- Fewer than four byte lanes were given (20_memory R54: only whole 32-bit accesses are defined). -/
  | short
  deriving DecidableEq, Repr

/-- `decode(v)` of 30_encoding R84; an ILLEGAL outcome says which test the word failed. -/
def decode (v : Word) : Except Illegal Instr :=
  if wordRsv v != 0 then .error .reservedBits
  else if wordOpc v = 0x01 then .ok .b2w
  else if wordOpc v = 0x02 then .ok .w2b
  else if wordOpc v = 0x03 then .ok .ksched
  else if wordOpc v = 0x04 then .ok .encb
  else if wordOpc v = 0x05 then .ok .decb
  else if wordOpc v = 0x06 then .ok .encm
  else if wordOpc v = 0x07 then .ok .decm
  else .error (.opcode (wordOpc v))

/-- The command word of each instruction (30_encoding R83). -/
def encode : Instr → Word
  | .b2w => 0x00000001
  | .w2b => 0x00000002
  | .ksched => 0x00000003
  | .encb => 0x00000004
  | .decb => 0x00000005
  | .encm => 0x00000006
  | .decm => 0x00000007

/-- The four byte lanes of a bus word, lane k being bits 8k+7 .. 8k (20_memory R54). -/
def busLanes (v : Word) : List Byte :=
  [v.extractLsb' 0 8, v.extractLsb' 8 8, v.extractLsb' 16 8, v.extractLsb' 24 8]

/-- The command word that four byte lanes of a byte-addressed bus carry, and what follows it (20_memory R54). -/
def decodeBytes : List Byte → Except Illegal (Instr × List Byte)
  | b0 :: b1 :: b2 :: b3 :: rest =>
    match decode (b3 ++ b2 ++ b1 ++ b0) with
    | .ok i => .ok (i, rest)
    | .error e => .error e
  | _ => .error .short

/-- The instruction the decoder reads from a table word; a value that needs more than 32 bits is no command word
(R80: "every command word is 32 bits"). -/
def decodeTableWord (nbits w : Nat) : Option Instr :=
  if w % 2 ^ nbits < 2 ^ 32 then
    match decodeBytes (busLanes (BitVec.ofNat 32 (w % 2 ^ nbits))) with
    | .ok (i, _) => some i
    | .error _ => none
  else none

end Sys2Proof
end

