-- ==== Sys2Proof/Machine/Lifecycle.lean ====
section
/-! DEFINITION. Command-start (60_exceptions R190), the ILLEGAL_CMD ending (R182), the bytes a host must keep off
while a command is unobserved (20_memory R64, R65), and reset (70_reset R210, R211). -/

namespace Sys2Proof.Machine

/-! ### Footprints (20_memory R64) -/

/-- The bytes the command word `v` reads and writes when it starts in `s`: none where it is illegal or a check of
60_exceptions R192 fails, since those endings access no memory. -/
def footprintOf (v : Word) (s : State) : Footprint :=
  match decode v with
  | .error _ => ⟨none, ⟨0, 0⟩, ⟨0, 0⟩, false⟩
  | .ok i =>
    match commandCheck i s with
    | some _ => ⟨some i, ⟨0, 0⟩, ⟨0, 0⟩, false⟩
    | none => ⟨some i, readRegion i s, writtenRegion i s, false⟩

/-- The access of byte `a` is one R64 forbids to a host: a write of a byte the command reads or writes, or a read of
a byte it writes. -/
def touches (f : Footprint) (a : Nat) : AccessKind → Bool
  | .write => regionHas f.reads a || regionHas f.writes a
  | .read => regionHas f.writes a

/-- Some unobserved command forbids the access. -/
def racesAt (s : State) (a : Nat) (k : AccessKind) : Bool := s.unsynced.any fun f => touches f a k

/-- Mark the footprint when the access is a forbidden one. -/
def markRaced (a : Nat) (k : AccessKind) (f : Footprint) : Footprint := { f with raced := f.raced || touches f a k }

/-- Record a host's data access of byte `a`. -/
def State.touch (a : Nat) (k : AccessKind) (s : State) : State :=
  { s with unsynced := s.unsynced.map (markRaced a k) }

/-- WORD becomes unspecified. -/
def State.loseWord (s : State) : State :=
  { s with word := Config.freeWord s.freeCount, freeCount := s.freeCount + 1 }

/-- BLK_A..BLK_D become unspecified. -/
def State.loseBlk (s : State) : State :=
  { s with blk := ⟨Config.freeWord s.freeCount, Config.freeWord (s.freeCount + 1), Config.freeWord (s.freeCount + 2),
                    Config.freeWord (s.freeCount + 3)⟩,
           freeCount := s.freeCount + 4 }

/-- OUT_LEN becomes unspecified. -/
def State.loseOutLen (s : State) : State :=
  { s with outLen := Config.freeWord s.freeCount, freeCount := s.freeCount + 1 }

/-- The result registers of the command, OUT_LEN apart, become unspecified (20_memory R64). -/
def loseResults (c : Option Instr) (s : State) : State :=
  match c with
  | some .b2w => s.loseWord
  | some .ksched => s.loseSubkeys
  | some .encb => s.loseBlk
  | some .decb => s.loseBlk
  | some .w2b => s
  | some .encm => s
  | some .decm => s
  | none => s

/-- OUT_LEN, for the commands whose result it is (20_memory R64). -/
def loseLength (c : Option Instr) (s : State) : State :=
  match c with
  | some .encm => s.loseOutLen
  | some .decm => s.loseOutLen
  | some .b2w => s
  | some .w2b => s
  | some .ksched => s
  | some .encb => s
  | some .decb => s
  | none => s

/-- What a race does to a command that a later one has followed: its written bytes and its result registers become
unspecified; OUT_LEN is by then the later command's (60_exceptions R190). DESIGN CHOICE, entry 24: how the earlier
command ended is no longer held, so its result registers are freed even where it ended with BUS_ERROR and wrote none
(R188), and even where something has written them since. -/
def settleOlder (f : Footprint) (s : State) : State :=
  if f.raced then loseResults f.command (s.loseBytes f.writes) else s

/-- What a race does to the last command once it has completed (20_memory R64): its written bytes and, where it ended
without error, its result registers become unspecified (entry 11), even where a host has written them since (DESIGN
CHOICE, entry 24). -/
def settleLast (f : Footprint) (s : State) : State :=
  if f.raced then
    if s.status.err = .none then loseLength f.command (loseResults f.command (s.loseBytes f.writes))
    else s.loseBytes f.writes
  else s

/-- The races of every completed command take effect; those of a command in progress wait for its completion. -/
def settle (s : State) : State :=
  match s.unsynced with
  | [] => s
  | f :: older =>
    let s1 := older.foldl (fun t g => settleOlder g t) s
    let calm := older.map fun g => { g with raced := false }
    if s.status.busy then { s1 with unsynced := f :: calm }
    else { settleLast f s1 with unsynced := { f with raced := false } :: calm }

/-! ### Command-start and the illegal ending -/

/-- The writes of command-start for the command word `v` (60_exceptions R190). -/
def latchCommand (v : Word) (s : State) : State :=
  { s with pending := v,
           status := { busy := true, done := false, err := .none,
                       keyValid := if v = 0x00000003 then false else s.status.keyValid },
           outLen := 0 }

/-- Command-start (R190); the command's footprint is noted beside it. -/
def commandStart (v : Word) (s : State) : State :=
  { latchCommand v s with unsynced := footprintOf v (latchCommand v s) :: s.unsynced }

/-- The ending of a word that decodes as ILLEGAL: "changes nothing but STATUS and OUT_LEN" (30_encoding R84,
60_exceptions R182); OUT_LEN is 0 since command-start. -/
def illegalCommand (s : State) : Result := raise .illegalCmd s

/-! ### Reset -/

/-- The written region of the command in progress (70_reset R211); empty for an illegal word. -/
def abandonedRegion (s : State) : Region :=
  match decode s.pending with
  | .ok i => writtenRegion i s
  | .error _ => ⟨0, 0⟩

/-- What reset does to data memory: the written region of a command in progress becomes unspecified (R211). -/
def abandon (s : State) : State := if s.status.busy then s.loseBytes (abandonedRegion s) else s

/-- Every register and field takes its value of 10_state R42 (70_reset R210). -/
def resetRegisters (s : State) : State :=
  { s with status := ⟨false, false, false, .none⟩, keyAddr := 0, keyLen := 0, srcAddr := 0, dstAddr := 0, len := 0,
           offset := 0, outLen := 0, word := 0, blk := ⟨0, 0, 0, 0⟩, subkeys := freeSubkeys s.freeCount, pending := 0,
           unsynced := [], freeCount := s.freeCount + 44 }

/-- Reset (70_reset R210, R211). -/
def resetBlock (s : State) : State := resetRegisters (abandon s)

end Sys2Proof.Machine
end

