-- ==== Sys2Proof/Machine/HostBus.lean ====
section
/-! DEFINITION. What a host's bus transaction does (10_state R21 to R24, R44, R45; 20_memory R64, R65). -/

namespace Sys2Proof.Machine

/-- What an idle block answers to a read of a register (10_state R21, R23, R24); `hostReadAt` gives the reads that
are unspecified. -/
def regValue (r : RegName) (s : State) : Word :=
  match r with
  | .cmd => 0
  | .status => statusWord s.status
  | .keyAddr => s.keyAddr
  | .keyLen => s.keyLen
  | .srcAddr => s.srcAddr
  | .dstAddr => s.dstAddr
  | .len => s.len
  | .offset => s.offset
  | .outLen => s.outLen
  | .word => s.word
  | .blkA => s.blk.a
  | .blkB => s.blk.b
  | .blkC => s.blk.c
  | .blkD => s.blk.d
  | .param => paramWord
  | .keyMax => s.platform.keyMaxBytes
  | .subkey i => s.subkeys[i]

/-- What a write of `v` to a register does in an idle block: a read-write register takes it, CMD starts a command, a
read-only register ignores it (10_state R21, R23, R24). -/
def writeRegister (r : RegName) (v : Word) (s : State) : State :=
  match r with
  | .cmd => commandStart v s
  | .status => s
  | .keyAddr => { s with keyAddr := v }
  | .keyLen => { s with keyLen := v }
  | .srcAddr => { s with srcAddr := v }
  | .dstAddr => { s with dstAddr := v }
  | .len => { s with len := v }
  | .offset => { s with offset := v }
  | .outLen => s
  | .word => { s with word := v }
  | .blkA => { s with blk := { s.blk with a := v } }
  | .blkB => { s with blk := { s.blk with b := v } }
  | .blkC => { s with blk := { s.blk with c := v } }
  | .blkD => { s with blk := { s.blk with d := v } }
  | .param => s
  | .keyMax => s
  | .subkey _ => s

/-- A whole aligned 32-bit write at an offset: dropped while BUSY = 1 (10_state R44), ignored at a reserved offset
(R23). -/
def hostWriteAt (off : BitVec 9) (v : Word) (s : State) : State :=
  if s.status.busy then s
  else
    match regAt off with
    | some r => writeRegister r v s
    | none => s

/-- The read returns `v`. -/
def State.answer (v : Word) (s : State) : State := { s with readData := v }

/-- The read returns a free word. -/
def State.answerFree (s : State) : State :=
  { s with readData := Config.freeWord s.freeCount, freeCount := s.freeCount + 1 }

/-- A STATUS read: it returns STATUS; where it returns BUSY = 0 it is the ordering point of 20_memory R65, after which
a host may use every byte. -/
def readStatus (s : State) : State :=
  { s with readData := statusWord s.status, unsynced := if s.status.busy then s.unsynced else [] }

/-- Whether the answer to a read is unspecified: every register but STATUS, PARAM and KEY_MAX while BUSY = 1 (10_state
R45), SUBKEY while KEY_VALID = 0 (R38, entry 4). A reserved offset holds no register, so R23 alone speaks of it
(entry 8). -/
def readIsFree (r : Option RegName) (s : State) : Bool :=
  match r with
  | none => false
  | some .status => false
  | some .param => false
  | some .keyMax => false
  | some (.subkey _) => s.status.busy || !s.status.keyValid
  | _ => s.status.busy

/-- A whole aligned 32-bit read at an offset; a reserved offset reads 0 (10_state R23). No read but
STATUS's ordering point has an effect on the block. -/
def hostReadAt (off : BitVec 9) (s : State) : State :=
  if readIsFree (regAt off) s then s.answerFree
  else
    match regAt off with
    | none => s.answer 0
    | some .status => readStatus s
    | some r => s.answer (regValue r s)

/-- The offset of a defined register access: whole, aligned, 32 bits (10_state R22), and in the register block. -/
def definedOffset (p : Platform) (addr : Word) (size : AccessSize) : Option (BitVec 9) :=
  match size with
  | .byte => none
  | .half => none
  | .word => if addr.toNat % 4 = 0 then blockOffset p addr else none

/-- A host's register write; one that is not a defined access has no effect (10_state R22, entries 9, 10). -/
def hostRegWrite (addr : Word) (size : AccessSize) (v : Word) (s : State) : State :=
  match definedOffset s.platform addr size with
  | some off => hostWriteAt off v s
  | none => s

/-- A host's register read; one that is not a defined access returns an unspecified value (10_state R22, entries 9,
10). -/
def hostRegRead (addr : Word) (size : AccessSize) (s : State) : State :=
  match definedOffset s.platform addr size with
  | some off => hostReadAt off s
  | none => s.answerFree

/-- A host's data-memory byte write; where R64 forbids it the race is noted. -/
def hostMemWrite (addr : Word) (b : Byte) (s : State) : State :=
  settle ((s.setMem (s.mem.write addr.toNat b)).touch addr.toNat .write)

/-- A host's data-memory byte read; where R64 forbids it the byte read is a free one and the race is noted. -/
def hostMemRead (addr : Word) (s : State) : State :=
  if racesAt s addr.toNat .read then
    settle (({ s with readData := (Config.freeByte s.freeCount).setWidth 32,
                      freeCount := s.freeCount + 1 } : State).touch addr.toNat .read)
  else s.answer ((s.mem.read addr.toNat).setWidth 32)

/-- One bus transaction. -/
def hostAccess (op : HostOp) (s : State) : State :=
  match op with
  | .regWrite addr size v => hostRegWrite addr size v s
  | .regRead addr size => hostRegRead addr size s
  | .memWrite addr b => hostMemWrite addr b s
  | .memRead addr => hostMemRead addr s

end Sys2Proof.Machine
end

