-- ==== Sys2Proof/Machine/Engine.lean ====
section
/-! DEFINITION. The engine's step (20_memory R63) and the turns of the machine (00_scope R14). -/

namespace Sys2Proof.Machine

/-- A result whose state has the races of completed commands applied (20_memory R64). -/
def settleResult : Result → Result
  | .next t => .next (settle t)
  | .fault f => .fault f
  | .refused r => .refused r

/-- The engine performs the whole command in PENDING (20_memory R63), or the illegal ending (30_encoding R84). -/
def engineStep (s : State) : Result :=
  match decode s.pending with
  | .ok i => settleResult (exec i s)
  | .error _ => settleResult (illegalCommand s)

/-- The engine's turn: its step is "always enabled while BUSY = 1" (R63) and is nothing while BUSY = 0 (60_exceptions
R202). -/
def engineTurn (s : State) : Result := if s.status.busy then engineStep s else .next s

/-- What the next turn does; the turn has left the agenda. -/
def takeTurn (t : Turn) (s : State) : Result :=
  match t with
  | .engine => engineTurn s
  | .host op => .next (hostAccess op s)
  | .reset => .next (resetBlock s)

/-- One step: the next turn of the agenda, and the engine's where the agenda is empty (70_reset R221). -/
def machineStep (s : State) : Result :=
  match s.agenda with
  | [] => engineTurn s
  | t :: rest => takeTurn t { s with agenda := rest }

/-- The command word of a table value: its bits above `nbits` are 0. -/
def tableWord (nbits w : Nat) : Word := BitVec.ofNat 32 (w % 2 ^ nbits)

/-- `v` written to CMD (60_exceptions R190), and the engine next to move. -/
def placeCommand (v : Word) (s : State) : State :=
  { commandStart v s with agenda := .engine :: s.agenda }

end Sys2Proof.Machine
end

