-- ==== Sys2Proof/Machine/Step.lean ====
section
/-! DEFINITION. The step of the machine, and a state whose next step runs a given command word. -/

namespace Sys2Proof.Machine

/-- One step (20_memory R63, 00_scope R14). -/
def step (s : State) : Host.Outcome State Fault Refusal := machineStep s

/-- `s` with the command word written to CMD and the engine next to move, so that the very next step runs it. -/
def State.withFetchWord (s : State) (nbits w : Nat) : State := placeCommand (tableWord nbits w) s

end Sys2Proof.Machine
end

