-- ==== Sys2Proof/Machine/Script.lean ====
section
/-! DEFINITION. Host scripts and the bus transactions they stand for (30_encoding R87 to R89). -/

namespace Sys2Proof.Machine

/-- One line of a host script (R87). -/
inductive ScriptLine where
  /-- `wr NAME, v`. -/
  | wr (r : RegName) (v : Word)
  /-- `rd NAME`. -/
  | rd (r : RegName)
  /-- `mem a: b0 b1 …`. -/
  | mem (a : Word) (bytes : List Byte)
  /-- `MNEMONIC`: start the command. -/
  | command (i : Instr)
  /-- `wait`: poll until the command ends; `n` is how many polls show BUSY = 1, which R88 does not fix. -/
  | wait (n : Nat)
  deriving DecidableEq, Repr

/-- `wr NAME, v`: one aligned 32-bit write at BASE + offset(NAME). -/
def wrTurn (p : Platform) (r : RegName) (v : Word) : Turn := .host (.regWrite (regAddr p r) .word v)

/-- `rd NAME`: one aligned 32-bit read at BASE + offset(NAME). -/
def rdTurn (p : Platform) (r : RegName) : Turn := .host (.regRead (regAddr p r) .word)

/-- The host writes bytes at data addresses a, a+1, …. DESIGN CHOICE, entry 25: a line that runs past 0xFFFF_FFFF goes
on at address 0; R87 gives it no meaning. -/
def memTurns (a : Word) : List Byte → List Turn
  | [] => []
  | b :: bs => .host (.memWrite a b) :: memTurns (a + 1) bs

/-- The turns of one line. `wait` is its STATUS reads, with the engine's step before the last of them. -/
def expandLine (p : Platform) : ScriptLine → List Turn
  | .wr r v => [wrTurn p r v]
  | .rd r => [rdTurn p r]
  | .mem a bytes => memTurns a bytes
  | .command i => [wrTurn p .cmd (encode i)]
  | .wait n => List.replicate n (rdTurn p .status) ++ [.engine, rdTurn p .status]

/-- The turns of a script. -/
def expandScript (p : Platform) (ls : List ScriptLine) : List Turn := ls.flatMap (expandLine p)

end Sys2Proof.Machine
end

