-- ==== Sys2Proof/Safety.lean ====
section
/-! DEFINITION. What a good state and a good run are, and the words the statements use. -/

namespace Sys2Proof.Machine

/-- The invariant every step keeps: memory is canonical and within the address space (20_memory R50, R60); BUSY = 1
excludes DONE, an error code and an output length (10_state R27, 60_exceptions R190); KEY_VALID = 0 while a KSCHED is in
progress (10_state R28); an error code stands only beside DONE (10_state R29), and OUT_LEN is 0 beside it (R32). -/
abbrev State.Inv (s : State) : Prop :=
  s.mem.wf ∧
  (s.status.busy = true → s.status.done = false ∧ s.status.err = .none ∧ s.outLen = 0) ∧
  (s.status.busy = true → s.pending = 0x00000003 → s.status.keyValid = false) ∧
  (s.status.done = false → s.status.err = .none) ∧
  (s.status.err ≠ .none → s.outLen = 0)

/-- A safe step answers a next state: no fault, no refusal. -/
def State.stepsSafely (s : State) : Prop := ∃ t, step s = .next t

/-- `t` is reached from `s` by steps. -/
inductive Reaches (s : State) : State → Prop where
  | refl : Reaches s s
  | tail {t u : State} (h : Reaches s t) (hs : step t = .next u) : Reaches s u

/-- The run from `s` is safe: every state it reaches steps safely. -/
def State.runsSafely (s : State) : Prop := ∀ t, Reaches s t → t.stepsSafely

/-- The state a command leaves that ends with error `e` and changes nothing but STATUS (60_exceptions R191, R193). -/
def State.ended (s : State) (e : ErrCode) : State := { s with status := ⟨false, true, s.status.keyValid, e⟩ }

/-- Every access of kind `k` in the region completes (00_scope R7). -/
def answers (p : Platform) (r : Region) (k : AccessKind) : Prop :=
  ∀ a, r.base ≤ a → a < r.base + r.size → memOk p a k = true

/-- Some access of kind `k` in the region does not complete. -/
def denies (p : Platform) (r : Region) (k : AccessKind) : Prop :=
  ∃ a, r.base ≤ a ∧ a < r.base + r.size ∧ memOk p a k = false

/-- Every byte outside the region reads in `m'` as in `m`. -/
def sameOutside (r : Region) (m m' : Memory) : Prop := ∀ a, regionHas r a = false → m'.read a = m.read a

/-- The `len` message bytes at `src`. -/
def messageAt (m : Memory) (src len : Nat) : List Byte := m.readList src len

/-- Writing block k before reading block k+1 reads no byte already written: the destination does not start inside the
source. In place (`dst = src`) is allowed (20_memory R59). -/
def readsBeforeWrites (src len dst : Nat) : Prop := dst ≤ src ∨ src + len ≤ dst

/-- The next turn is the engine's: it is first in the agenda, or the agenda is empty. -/
def State.engineNext (s : State) : Prop := s.agenda = [] ∨ s.agenda.head? = some .engine

/-- No race is waiting to take effect. -/
def State.noRace (s : State) : Prop := ∀ f ∈ s.unsynced, f.raced = false

/-- The next turn is no data-memory access that 20_memory R64 forbids. -/
def State.nextPermitted (s : State) : Prop :=
  (∀ a b, s.agenda.head? = some (.host (.memWrite a b)) → racesAt s a.toNat .write = false) ∧
  ∀ a, s.agenda.head? = some (.host (.memRead a)) → racesAt s a.toNat .read = false

/-- KEY_VALID = 1 means that S is the schedule of a key that KSCHED accepts (10_state R28). -/
def State.keyed (s : State) : Prop :=
  s.status.keyValid = true → ∃ K : List Byte, K.length ≤ s.platform.keyMaxBytes.toNat ∧ s.subkeys = keySchedule K

end Sys2Proof.Machine
end

