-- ==== Sys2Proof/Certificates/Slice0/Obligations.lean ====
section
/-! DEFINITION. The statements for the provers. -/

open Sys2Proof Sys2Proof.Machine

/-! ### Encoding (30_encoding) -/

/-- R83: the seven command words, written out from the opcode map, decode to the commands they stand for. -/
def Obligations.CommandWordsDecode : Prop :=
  decode 0x00000001#32 = .ok .b2w ∧ decode 0x00000002#32 = .ok .w2b ∧ decode 0x00000003#32 = .ok .ksched ∧
  decode 0x00000004#32 = .ok .encb ∧ decode 0x00000005#32 = .ok .decb ∧ decode 0x00000006#32 = .ok .encm ∧
  decode 0x00000007#32 = .ok .decm

/-- R83, R84: decoding the four byte lanes of an encoded command gives it back and leaves what follows, and a word
decodes to a command exactly when it is that command's word, whole ("mask 0xFFFF_FFFF"). -/
def Obligations.DecodeEncodeAgree : Prop :=
  (∀ (i : Instr) (rest : List Byte), i.wellFormed = true →
    decodeBytes (busLanes (encode i) ++ rest) = .ok (i, rest)) ∧
  ∀ (w : Word) (i : Instr), decode w = .ok i ↔ w = encode i

/-- R85: a word is illegal exactly when OPC is 0x00 or 0x08 .. 0xFF or RSV is not 0. -/
def Obligations.IllegalWordsAreTheRest : Prop :=
  ∀ w : Word, (∃ e, decode w = .error e) ↔
    (w.extractLsb' 0 8 = (0 : BitVec 8) ∨ 0x08 ≤ (w.extractLsb' 0 8).toNat ∨ w.extractLsb' 8 24 ≠ (0 : BitVec 24))

/-! ### The step and the lifecycle of a command (20_memory R63, 60_exceptions) -/

/-- R63, R84: where a command is in progress, the engine is next (log entry 6) and PENDING decodes to `i`, the step is
`exec i`, whole and at once, on the state with the turn taken; a race noted before then takes effect (R64, log entry
11). -/
def Obligations.StepRunsDecodedCommand : Prop :=
  ∀ (s : State) (i : Instr), s.status.busy = true → s.engineNext → decode s.pending = .ok i →
    step s = settleResult (exec i { s with agenda := s.agenda.tail }) ∧
    ∀ t, exec i { s with agenda := s.agenda.tail } = .next t → t.noRace → step s = .next t

/-- R182: a PENDING that decodes as ILLEGAL ends with code 1 and changes nothing else of the block. -/
def Obligations.IllegalCommandChangesOnlyStatus : Prop :=
  ∀ (s : State) (e : Illegal), s.status.busy = true → s.engineNext → s.noRace → decode s.pending = .error e →
    step s = .next { s with agenda := s.agenda.tail, status := ⟨false, true, s.status.keyValid, .illegalCmd⟩ }

/-- R190: a write of `v` to CMD while BUSY = 0 makes exactly these writes. The model's own note `f` (log entry 11, DESIGN
CHOICE) holds the bytes the decoded command reads and its written region (R60, R61) where its register-only checks
pass, and no byte otherwise or for an illegal word. -/
def Obligations.CommandStartWrites : Prop :=
  ∀ (s : State) (v : Word) (rest : List Turn), s.status.busy = false →
    s.agenda = .host (.regWrite (regAddr s.platform .cmd) .word v) :: rest →
    ∃ f, step s = .next { s with
        agenda := rest, pending := v, outLen := 0, unsynced := f :: s.unsynced,
        status := ⟨true, false, if v = 0x00000003#32 then false else s.status.keyValid, .none⟩ } ∧
      f.raced = false ∧
      (∀ e, decode v = .error e → f.command = none ∧ f.reads = ⟨0, 0⟩ ∧ f.writes = ⟨0, 0⟩) ∧
      (∀ i, decode v = .ok i → f.command = some i) ∧
      (decode v = .ok .b2w → f.writes = ⟨0, 0⟩ ∧ f.reads =
        if s.srcAddr.toNat + s.len.toNat ≤ 2 ^ 32 then
          ⟨s.srcAddr.toNat + s.offset.toNat, min 4 (s.len.toNat - s.offset.toNat)⟩ else ⟨0, 0⟩) ∧
      (decode v = .ok .w2b → f.reads = ⟨0, 0⟩ ∧ f.writes =
        if s.offset.toNat + 4 ≤ s.len.toNat ∧ s.dstAddr.toNat + s.len.toNat ≤ 2 ^ 32 then
          ⟨s.dstAddr.toNat + s.offset.toNat, 4⟩ else ⟨0, 0⟩) ∧
      (decode v = .ok .ksched → f.writes = ⟨0, 0⟩ ∧ f.reads =
        if s.keyLen.toNat ≤ s.platform.keyMaxBytes.toNat ∧ s.keyAddr.toNat + s.keyLen.toNat ≤ 2 ^ 32 then
          ⟨s.keyAddr.toNat, s.keyLen.toNat⟩ else ⟨0, 0⟩) ∧
      (decode v = .ok .encb ∨ decode v = .ok .decb → f.reads = ⟨0, 0⟩ ∧ f.writes = ⟨0, 0⟩) ∧
      (decode v = .ok .encm → (f.reads, f.writes) =
        if s.status.keyValid = true ∧ s.len.toNat ≤ 0xFFFFFFF0 ∧ s.srcAddr.toNat + s.len.toNat ≤ 2 ^ 32 ∧
            s.dstAddr.toNat + 16 * ((s.len.toNat + 15) / 16) ≤ 2 ^ 32 then
          (⟨s.srcAddr.toNat, s.len.toNat⟩, ⟨s.dstAddr.toNat, 16 * ((s.len.toNat + 15) / 16)⟩)
        else (⟨0, 0⟩, ⟨0, 0⟩)) ∧
      (decode v = .ok .decm → (f.reads, f.writes) =
        if s.status.keyValid = true ∧ s.len.toNat % 16 = 0 ∧ s.srcAddr.toNat + s.len.toNat ≤ 2 ^ 32 ∧
            s.dstAddr.toNat + s.len.toNat ≤ 2 ^ 32 then
          (⟨s.srcAddr.toNat, s.len.toNat⟩, ⟨s.dstAddr.toNat, s.len.toNat⟩)
        else (⟨0, 0⟩, ⟨0, 0⟩))

/-- R191: every command answers a next state with BUSY = 0 and DONE = 1, and R30, R31: it leaves every operand register as
it was; PENDING, the hosts' turns and their read data stay too. -/
def Obligations.CommandsCompleteAndKeepOperands : Prop :=
  ∀ (i : Instr) (s : State), ∃ t, exec i s = .next t ∧ t.status.busy = false ∧ t.status.done = true ∧
    t.keyAddr = s.keyAddr ∧ t.keyLen = s.keyLen ∧ t.srcAddr = s.srcAddr ∧ t.dstAddr = s.dstAddr ∧ t.len = s.len ∧
    t.offset = s.offset ∧ t.platform = s.platform ∧ t.pending = s.pending ∧ t.agenda = s.agenda ∧
    t.readData = s.readData ∧ t.unsynced = s.unsynced

/-- R43: what each command may write, however it ends: WORD only B2W, the block only ENCB and DECB, S and KEY_VALID only
KSCHED, OUT_LEN only ENCM and DECM, and data memory only inside the written region of R61. -/
def Obligations.CommandWriteSets : Prop :=
  ∀ (i : Instr) (s t : State), exec i s = .next t →
    (i ≠ .b2w → t.word = s.word) ∧ (i ≠ .encb ∧ i ≠ .decb → t.blk = s.blk) ∧
    (i ≠ .ksched → t.subkeys = s.subkeys ∧ t.status.keyValid = s.status.keyValid) ∧
    (i ≠ .encm ∧ i ≠ .decm → t.outLen = s.outLen) ∧
    (i ≠ .w2b ∧ i ≠ .encm ∧ i ≠ .decm → t.mem = s.mem) ∧
    (i = .w2b → sameOutside ⟨s.dstAddr.toNat + s.offset.toNat, 4⟩ s.mem t.mem) ∧
    (i = .encm → sameOutside ⟨s.dstAddr.toNat, 16 * ((s.len.toNat + 15) / 16)⟩ s.mem t.mem) ∧
    (i = .decm → sameOutside ⟨s.dstAddr.toNat, s.len.toNat⟩ s.mem t.mem)

/-- R183: the four commands that need a key end with NO_KEY where KEY_VALID = 0, and nothing but STATUS changes (OUT_LEN
is 0 since command-start). -/
def Obligations.NoKeyEndsKeyedCommands : Prop :=
  ∀ (i : Instr) (s : State), (i = .encb ∨ i = .decb ∨ i = .encm ∨ i = .decm) → s.status.keyValid = false →
    exec i s = .next { s with status := ⟨false, true, false, .noKey⟩ }

/-- R202: an idle engine's turn changes no state. -/
def Obligations.IdleEngineChangesNothing : Prop :=
  ∀ s : State, s.status.busy = false → s.engineNext → step s = .next { s with agenda := s.agenda.tail }

/-- No step faults or refuses, from any state, ever. R63 and R221 say so of the engine's step and of the commands; that no
host's turn and no reset stops is the model's choice (log entries 9 and 15, both DEDUCED), since R22 and
93_implementation_defined S4 would allow a refusal. -/
def Obligations.EveryRunIsSafe : Prop := ∀ s : State, s.runsSafely

/-- A started command is over after at most as many steps as there are turns left and one more. R221 gives finitely many
host steps; the bound is the model's (log entry 6, DESIGN CHOICE: the agenda is finite, and the engine moves when it is
empty). -/
def Obligations.StartedCommandEnds : Prop :=
  ∀ s : State, s.status.busy = true →
    ∃ (k : Nat) (t : State), k ≤ s.agenda.length + 1 ∧ Host.Core.run core k s = .next t ∧ t.status.busy = false

/-- R88, R220: `wait` (log entry 20) with any number `n` of reads that show BUSY = 1 ends with a STATUS read that shows
BUSY = 0 and DONE = 1. That this read ends every noted command's window for every host, where R65 orders only the host
that read STATUS and only that command, is the model's choice (log entries 11, 12, DESIGN CHOICE). -/
def Obligations.WaitSeesCompletion : Prop :=
  ∀ (n : Nat) (s : State) (rest : List Turn), s.status.busy = true →
    s.agenda = expandLine s.platform (.wait n) ++ rest →
    ∃ t, Host.Core.run core (n + 2) s = .next t ∧ t.agenda = rest ∧ t.status.busy = false ∧ t.status.done = true ∧
      t.readData = statusWord t.status ∧ t.readData.getLsbD 0 = false ∧ t.readData.getLsbD 1 = true ∧ t.unsynced = []

/-- R88, R89: a mnemonic line is one aligned write of its command word at BASE + 0x000, and taking that turn in an idle
block starts the command. -/
def Obligations.MnemonicLineStartsCommand : Prop :=
  ∀ (i : Instr) (p : Platform), expandLine p (.command i) = [.host (.regWrite (baseAddr p) .word (encode i))] ∧
    ∀ (s : State) (rest : List Turn), s.platform = p → s.status.busy = false →
      s.agenda = expandLine p (.command i) ++ rest →
      ∃ t, step s = .next t ∧ t.status.busy = true ∧ decode t.pending = .ok i ∧ t.agenda = rest

/-! ### Reset and invariants (10_state R42, 70_reset) -/

/-- R42: the reset values the spec gives to what the state holds, on every platform. -/
def Obligations.ResetStateValues : Prop :=
  ∀ p : Platform, (State.resetOn p).status = ⟨false, false, false, .none⟩ ∧
    statusWord (State.resetOn p).status = 0 ∧ (State.resetOn p).keyAddr = 0 ∧ (State.resetOn p).keyLen = 0 ∧
    (State.resetOn p).srcAddr = 0 ∧ (State.resetOn p).dstAddr = 0 ∧ (State.resetOn p).len = 0 ∧
    (State.resetOn p).offset = 0 ∧ (State.resetOn p).outLen = 0 ∧ (State.resetOn p).word = 0 ∧
    (State.resetOn p).blk = ⟨0, 0, 0, 0⟩ ∧ State.reset = State.resetOn Config.platform

/-- R210, R211: reset at any time puts every register and field for which R42 gives a value into it at once; data memory
is unchanged, but for the written region of a command in progress (log entry 14). -/
def Obligations.ResetTurnValues : Prop :=
  ∀ (s : State) (rest : List Turn), s.agenda = .reset :: rest →
    ∃ t, step s = .next t ∧ t.agenda = rest ∧ t.platform = s.platform ∧ t.status = ⟨false, false, false, .none⟩ ∧
      t.keyAddr = 0 ∧ t.keyLen = 0 ∧ t.srcAddr = 0 ∧ t.dstAddr = 0 ∧ t.len = 0 ∧ t.offset = 0 ∧ t.outLen = 0 ∧
      t.word = 0 ∧ t.blk = ⟨0, 0, 0, 0⟩ ∧
      (s.status.busy = false → t.mem = s.mem) ∧
      (∀ i, s.status.busy = true → decode s.pending = .ok i → sameOutside (writtenRegion i s) s.mem t.mem) ∧
      (∀ e, s.status.busy = true → decode s.pending = .error e → t.mem = s.mem)

/-- The invariant holds after reset, on every platform. -/
def Obligations.InvariantHoldsAtReset : Prop := State.reset.Inv ∧ ∀ p : Platform, (State.resetOn p).Inv

/-- Every step keeps the invariant: canonical memory within 2^32 (R50, R60), BUSY = 1 excludes DONE, a code and a length
(R27, R190), KEY_VALID = 0 while KSCHED runs (R28), a code only beside DONE (R29), OUT_LEN = 0 beside a code (R32). -/
def Obligations.StepKeepsInvariant : Prop := ∀ s t : State, s.Inv → step s = .next t → t.Inv

/-- R20: the configuration is not state; no step changes it. -/
def Obligations.PlatformNeverChanges : Prop := ∀ s t : State, step s = .next t → t.platform = s.platform

/-- R40: while BUSY = 0 the latch means nothing: two states that differ in it alone step alike, up to the latch. -/
def Obligations.IdleLatchIsUnobservable : Prop :=
  ∀ (s : State) (v : Word), s.status.busy = false →
    ∃ t u, step s = .next t ∧ step { s with pending := v } = .next u ∧ (u = t ∨ u = { t with pending := v })

/-- R39, R126: between two KSCHEDs S does not change: no step but a KSCHED, a reset, or the effect of an access R64
forbids, as the model notes such accesses (log entries 11, 12, DESIGN CHOICE), writes it. -/
def Obligations.SubkeysStayBetweenKscheds : Prop :=
  ∀ s t : State, step s = .next t → s.noRace → s.nextPermitted → s.agenda.head? ≠ some .reset →
    (s.engineNext → s.status.busy = true → s.pending ≠ 0x00000003#32) → t.subkeys = s.subkeys

/-- R28: KEY_VALID = 1 means that S is KS of a key within KEY_MAX_BYTES; every step keeps that, resets and failed KSCHEDs
too, but the effect of an access R64 forbids, as the model notes such accesses (log entries 11, 12, DESIGN CHOICE),
which leaves S unspecified. -/
def Obligations.KeyValidMeansSchedule : Prop :=
  State.reset.keyed ∧ ∀ s t : State, step s = .next t → s.noRace → s.nextPermitted → s.keyed → t.keyed

/-! ### The register block (10_state) -/

/-- R21: the offsets of the register map; each register is found at its own offset and at no other, and BASE + offset is
its address. -/
def Obligations.RegisterMapRoundTrip : Prop :=
  (regOffset .cmd).toNat = 0x000 ∧ (regOffset .status).toNat = 0x004 ∧ (regOffset .keyAddr).toNat = 0x008 ∧
  (regOffset .keyLen).toNat = 0x00C ∧ (regOffset .srcAddr).toNat = 0x010 ∧ (regOffset .dstAddr).toNat = 0x014 ∧
  (regOffset .len).toNat = 0x018 ∧ (regOffset .offset).toNat = 0x01C ∧ (regOffset .outLen).toNat = 0x020 ∧
  (regOffset .word).toNat = 0x024 ∧ (regOffset .blkA).toNat = 0x030 ∧ (regOffset .blkB).toNat = 0x034 ∧
  (regOffset .blkC).toNat = 0x038 ∧ (regOffset .blkD).toNat = 0x03C ∧ (regOffset .param).toNat = 0x040 ∧
  (regOffset .keyMax).toNat = 0x044 ∧ (∀ i : Fin 44, (regOffset (.subkey i)).toNat = 0x100 + 4 * i.val) ∧
  (∀ (off : BitVec 9) (r : RegName), regAt off = some r ↔ off = regOffset r) ∧
  ∀ (p : Platform) (r : RegName), (regAddr p r).toNat = (baseAddr p).toNat + (regOffset r).toNat ∧
    (baseAddr p).toNat % 512 = 0 ∧ definedOffset p (regAddr p r) .word = some (regOffset r)

/-- R25, R181: the fields of STATUS, every other bit 0, and the codes of ERR. -/
def Obligations.StatusWordFields : Prop :=
  (∀ t : Status, (statusWord t).getLsbD 0 = t.busy ∧ (statusWord t).getLsbD 1 = t.done ∧
    (statusWord t).getLsbD 2 = t.keyValid ∧ (statusWord t).extractLsb' 8 4 = errCode t.err ∧
    (errCode t.err).toNat < 8 ∧ ∀ k, 3 ≤ k ∧ k ≤ 7 ∨ 12 ≤ k → (statusWord t).getLsbD k = false) ∧
  (errCode .none).toNat = 0 ∧ (errCode .illegalCmd).toNat = 1 ∧ (errCode .noKey).toNat = 2 ∧
  (errCode .keyTooLong).toNat = 3 ∧ (errCode .invalidLength).toNat = 4 ∧ (errCode .offsetRange).toNat = 5 ∧
  (errCode .addrRange).toNat = 6 ∧ (errCode .busError).toNat = 7

/-- R44: while BUSY = 1 a host write to any register of the block, of any size, CMD included, has no effect on any state.
The statement is about every host-bus address; that a register transaction outside the block has no effect is the
model's choice (log entry 10, DESIGN CHOICE). -/
def Obligations.BusyWritesAreDropped : Prop :=
  ∀ (s : State) (addr : Word) (size : AccessSize) (v : Word) (rest : List Turn), s.status.busy = true →
    s.agenda = .host (.regWrite addr size v) :: rest → step s = .next { s with agenda := rest }

/-- R45: while BUSY = 1 a read of STATUS, PARAM or KEY_MAX returns its value, and no read changes the block. The value of
any other read is the model's free word (R13), of which nothing is said. -/
def Obligations.BusyReadsAnswer : Prop :=
  ∀ (s : State) (r : RegName) (rest : List Turn), s.status.busy = true →
    s.agenda = .host (.regRead (regAddr s.platform r) .word) :: rest →
    ∃ v n, step s = .next { s with agenda := rest, readData := v, freeCount := n } ∧
      (r = .status → v = statusWord s.status) ∧ (r = .param → v = 0x102C1420#32) ∧
      (r = .keyMax → v = s.platform.keyMaxBytes)

/-- R21, R23, R24, R36 to R38, R65: what each register reads as in an idle block, and that no register read changes the
block, a SUBKEY read included whatever KEY_VALID is; while KEY_VALID = 0 the value of a SUBKEY read is the model's free
word (R38, log entry 4), of which nothing is said. A STATUS read ends the model's note of started commands (log entries
11, 12). -/
def Obligations.IdleReadsAnswer : Prop :=
  ∀ (s : State) (r : RegName) (rest : List Turn), s.status.busy = false →
    s.agenda = .host (.regRead (regAddr s.platform r) .word) :: rest →
    ∃ v n, step s = .next { s with agenda := rest, readData := v, freeCount := n,
                                   unsynced := if r = .status then [] else s.unsynced } ∧
      ((∀ i, r ≠ .subkey i) ∨ s.status.keyValid = true → n = s.freeCount) ∧
      (r = .cmd → v = 0) ∧ (r = .status → v = statusWord s.status) ∧ (r = .keyAddr → v = s.keyAddr) ∧
      (r = .keyLen → v = s.keyLen) ∧ (r = .srcAddr → v = s.srcAddr) ∧ (r = .dstAddr → v = s.dstAddr) ∧
      (r = .len → v = s.len) ∧ (r = .offset → v = s.offset) ∧ (r = .outLen → v = s.outLen) ∧
      (r = .word → v = s.word) ∧ (r = .blkA → v = s.blk.a) ∧ (r = .blkB → v = s.blk.b) ∧ (r = .blkC → v = s.blk.c) ∧
      (r = .blkD → v = s.blk.d) ∧ (r = .param → v = 0x102C1420#32) ∧ (r = .keyMax → v = s.platform.keyMaxBytes) ∧
      ∀ i, r = .subkey i → s.status.keyValid = true → v = s.subkeys[i]

/-- R21: an idle write to a read-write register sets that register and nothing else. -/
def Obligations.IdleWritesSetOneRegister : Prop :=
  ∀ (s : State) (v : Word) (rest : List Turn) (r : RegName), s.status.busy = false →
    s.agenda = .host (.regWrite (regAddr s.platform r) .word v) :: rest →
    (r = .keyAddr → step s = .next { s with agenda := rest, keyAddr := v }) ∧
    (r = .keyLen → step s = .next { s with agenda := rest, keyLen := v }) ∧
    (r = .srcAddr → step s = .next { s with agenda := rest, srcAddr := v }) ∧
    (r = .dstAddr → step s = .next { s with agenda := rest, dstAddr := v }) ∧
    (r = .len → step s = .next { s with agenda := rest, len := v }) ∧
    (r = .offset → step s = .next { s with agenda := rest, offset := v }) ∧
    (r = .word → step s = .next { s with agenda := rest, word := v }) ∧
    (r = .blkA → step s = .next { s with agenda := rest, blk := ⟨v, s.blk.b, s.blk.c, s.blk.d⟩ }) ∧
    (r = .blkB → step s = .next { s with agenda := rest, blk := ⟨s.blk.a, v, s.blk.c, s.blk.d⟩ }) ∧
    (r = .blkC → step s = .next { s with agenda := rest, blk := ⟨s.blk.a, s.blk.b, v, s.blk.d⟩ }) ∧
    (r = .blkD → step s = .next { s with agenda := rest, blk := ⟨s.blk.a, s.blk.b, s.blk.c, v⟩ })

/-- R23, R39: a write to a read-only register or a reserved offset has no effect and a reserved offset reads 0, whether a
command is in progress (log entry 8) or not; the reserved offsets are exactly R23's. -/
def Obligations.ReadOnlyAndReservedOffsets : Prop :=
  (∀ off : BitVec 9, off.toNat % 4 = 0 → (regAt off = none ↔
    off.toNat = 0x028 ∨ off.toNat = 0x02C ∨ (0x048 ≤ off.toNat ∧ off.toNat ≤ 0x0FC) ∨ 0x1B0 ≤ off.toNat)) ∧
  ∀ (s : State) (addr v : Word) (off : BitVec 9) (rest : List Turn),
    definedOffset s.platform addr .word = some off →
    (regAt off = none ∨ regAt off = some .status ∨ regAt off = some .outLen ∨ regAt off = some .param ∨
        regAt off = some .keyMax ∨ (∃ i, regAt off = some (.subkey i)) →
      s.agenda = .host (.regWrite addr .word v) :: rest → step s = .next { s with agenda := rest }) ∧
    (regAt off = none → s.agenda = .host (.regRead addr .word) :: rest →
      step s = .next { s with agenda := rest, readData := 0 })

/-- R22: a narrow or misaligned access to the block: the write has no effect on any state, the read changes nothing and
returns the model's free word. The statement is about every host-bus address; outside the block it rests on the model's
choice (log entry 10, DESIGN CHOICE). -/
def Obligations.UndefinedAccessesHaveNoEffect : Prop :=
  ∀ (s : State) (addr v : Word) (size : AccessSize) (rest : List Turn), (size ≠ .word ∨ addr.toNat % 4 ≠ 0) →
    (s.agenda = .host (.regWrite addr size v) :: rest → step s = .next { s with agenda := rest }) ∧
    (s.agenda = .host (.regRead addr size) :: rest →
      ∃ x n, step s = .next { s with agenda := rest, readData := x, freeCount := n })

/-- R39: no host register access reaches S; and none reaches data memory. That the latter holds at every host-bus address,
also outside the block, is the model's choice (log entry 10, DESIGN CHOICE): R51 leaves to the platform whether the two
buses are one. -/
def Obligations.RegisterAccessReachesNoSubkey : Prop :=
  ∀ (s t : State) (addr v : Word) (size : AccessSize) (rest : List Turn),
    (s.agenda = .host (.regWrite addr size v) :: rest ∨ s.agenda = .host (.regRead addr size) :: rest) →
    step s = .next t → t.subkeys = s.subkeys ∧ t.mem = s.mem

/-! ### Hosts and data memory (20_memory R50, R64, R65) -/

/-- R50, R65: a host's data access that R64 does not forbid writes that byte alone, or returns it. That it completes at
every address, also where MEM_OK is false, is log entry 23 (DEDUCED); that the byte is returned zero-extended in
`readData` is log entry 7 (DESIGN CHOICE). Which accesses are forbidden is what the model notes: once any host has read
STATUS with BUSY = 0, every host may access every byte, one that has not read STATUS itself too, where R65 leaves the
ordering between hosts to the platform (log entries 11, 12, DESIGN CHOICE). -/
def Obligations.PermittedDataAccess : Prop :=
  ∀ (s : State) (a : Word) (b : Byte) (rest : List Turn), s.noRace →
    (racesAt s a.toNat .write = false → s.agenda = .host (.memWrite a b) :: rest →
      ∃ m, step s = .next { s with agenda := rest, mem := m } ∧ m.read a.toNat = b ∧
        sameOutside ⟨a.toNat, 1⟩ s.mem m) ∧
    (racesAt s a.toNat .read = false → s.agenda = .host (.memRead a) :: rest →
      step s = .next { s with agenda := rest, readData := (s.mem.read a.toNat).setWidth 32 })

/-- A data access that R64 forbids can change outputs only: STATUS, the operand registers and every byte but the one
accessed and those of a noted written region stay. R64 lists what becomes unspecified; that nothing else changes, and
that the regions are those the model noted, is the model's choice (log entries 11, 12, DESIGN CHOICE). -/
def Obligations.RaceReachesOutputsOnly : Prop :=
  ∀ (s t : State) (a : Word) (b : Byte) (rest : List Turn),
    (s.agenda = .host (.memWrite a b) :: rest ∨ s.agenda = .host (.memRead a) :: rest) → step s = .next t →
    t.status = s.status ∧ t.keyAddr = s.keyAddr ∧ t.keyLen = s.keyLen ∧ t.srcAddr = s.srcAddr ∧
    t.dstAddr = s.dstAddr ∧ t.len = s.len ∧ t.offset = s.offset ∧ t.pending = s.pending ∧
    ∀ x, x ≠ a.toNat → (∀ f ∈ s.unsynced, regionHas f.writes x = false) → t.mem.read x = s.mem.read x

/-! ### Codec (40_codec) -/

/-- R102: the inverse laws of the codec, and reads past the buffer's end. -/
def Obligations.CodecInverseLaws : Prop :=
  (∀ w : Word, bytesToWord (wordToBytes w) 0 = w) ∧
  (∀ b : List Byte, b.length = 4 → wordToBytes (bytesToWord b 0) = b) ∧
  ∀ (buf : List Byte) (off : Nat), buf.length < off + 4 →
    bytesToWord buf off = bytesToWord (buf ++ List.replicate (off + 4 - buf.length) 0) off

/-- R100, R101, R141: the byte layout of words and blocks. Byte k of wordToBytes and of bytesToWord is bits 8k+7 .. 8k of
the word; byte 4q+k of wordsToBlock is bits 8k+7 .. 8k of word q of A, B, C, D; blockToWords reads the same layout at
any place of a buffer (zero beyond its end), and the two undo each other on 16 bytes. -/
def Obligations.WordAndBlockByteLayout : Prop :=
  (∀ (w : Word) (k : Nat), k < 4 → (wordToBytes w)[k]? = some (w.extractLsb' (8 * k) 8)) ∧
  (∀ (buf : List Byte) (off k : Nat), k < 4 →
    (bytesToWord buf off).extractLsb' (8 * k) 8 = buf.getD (off + k) 0) ∧
  (∀ x : Block, (wordsToBlock x).length = 16 ∧
    (∀ k < 4, (wordsToBlock x)[k]? = some (x.a.extractLsb' (8 * k) 8) ∧
      (wordsToBlock x)[4 + k]? = some (x.b.extractLsb' (8 * k) 8) ∧
      (wordsToBlock x)[8 + k]? = some (x.c.extractLsb' (8 * k) 8) ∧
      (wordsToBlock x)[12 + k]? = some (x.d.extractLsb' (8 * k) 8)) ∧
    blockToWords (wordsToBlock x) 0 = x) ∧
  (∀ b : List Byte, b.length = 16 → wordsToBlock (blockToWords b 0) = b) ∧
  ∀ (buf : List Byte) (p k : Nat), k < 4 →
    (blockToWords buf p).a.extractLsb' (8 * k) 8 = buf.getD (p + k) 0 ∧
    (blockToWords buf p).b.extractLsb' (8 * k) 8 = buf.getD (p + 4 + k) 0 ∧
    (blockToWords buf p).c.extractLsb' (8 * k) 8 = buf.getD (p + 8 + k) 0 ∧
    (blockToWords buf p).d.extractLsb' (8 * k) 8 = buf.getD (p + 12 + k) 0

/-- R103: B2W sets WORD to the little-endian word at OFFSET of the LEN bytes at SRC_ADDR, zero beyond them, and nothing
else but the completion; only the bytes it reads need to answer. -/
def Obligations.B2wReadsWord : Prop :=
  ∀ s : State, s.srcAddr.toNat + s.len.toNat ≤ 2 ^ 32 →
    (∀ i < 4, s.offset.toNat + i < s.len.toNat →
      memOk s.platform (s.srcAddr.toNat + (s.offset.toNat + i)) .read = true) →
    exec .b2w s = .next { s with
      word := bytesToWord (s.mem.readList s.srcAddr.toNat s.len.toNat) s.offset.toNat,
      status := ⟨false, true, s.status.keyValid, .none⟩ }

/-- R103: B2W's errors in priority order; WORD and everything but STATUS are unchanged. -/
def Obligations.B2wErrors : Prop :=
  ∀ s : State,
    (2 ^ 32 < s.srcAddr.toNat + s.len.toNat →
      exec .b2w s = .next { s with status := ⟨false, true, s.status.keyValid, .addrRange⟩ }) ∧
    (s.srcAddr.toNat + s.len.toNat ≤ 2 ^ 32 →
      (∃ i < 4, s.offset.toNat + i < s.len.toNat ∧
        memOk s.platform (s.srcAddr.toNat + (s.offset.toNat + i)) .read = false) →
      exec .b2w s = .next { s with status := ⟨false, true, s.status.keyValid, .busError⟩ })

/-- R104: W2B writes WORD's four bytes, little-endian, at DST_ADDR + OFFSET; every other byte and every register but
STATUS stay. -/
def Obligations.W2bWritesBytes : Prop :=
  ∀ s : State, s.offset.toNat + 4 ≤ s.len.toNat → s.dstAddr.toNat + s.len.toNat ≤ 2 ^ 32 →
    answers s.platform ⟨s.dstAddr.toNat + s.offset.toNat, 4⟩ .write →
    ∃ m, exec .w2b s = .next { s with mem := m, status := ⟨false, true, s.status.keyValid, .none⟩ } ∧
      (∀ i < 4, m.read (s.dstAddr.toNat + s.offset.toNat + i) = s.word.extractLsb' (8 * i) 8) ∧
      sameOutside ⟨s.dstAddr.toNat + s.offset.toNat, 4⟩ s.mem m

/-- R104, R61: W2B's errors in priority order; OFFSET_RANGE and ADDR_RANGE change STATUS alone; after BUS_ERROR every
byte outside the four is unchanged. -/
def Obligations.W2bErrors : Prop :=
  ∀ s : State,
    (s.len.toNat < s.offset.toNat + 4 →
      exec .w2b s = .next { s with status := ⟨false, true, s.status.keyValid, .offsetRange⟩ }) ∧
    (s.offset.toNat + 4 ≤ s.len.toNat → 2 ^ 32 < s.dstAddr.toNat + s.len.toNat →
      exec .w2b s = .next { s with status := ⟨false, true, s.status.keyValid, .addrRange⟩ }) ∧
    (s.offset.toNat + 4 ≤ s.len.toNat → s.dstAddr.toNat + s.len.toNat ≤ 2 ^ 32 →
      denies s.platform ⟨s.dstAddr.toNat + s.offset.toNat, 4⟩ .write →
      ∃ m n, exec .w2b s = .next { s with mem := m, freeCount := n,
                                          status := ⟨false, true, s.status.keyValid, .busError⟩ } ∧
        sameOutside ⟨s.dstAddr.toNat + s.offset.toNat, 4⟩ s.mem m)

/-! ### Key schedule (41_key_schedule) -/

/-- R120: the initial table. -/
def Obligations.InitialTable : Prop :=
  initialSubkeys[0] = 0xB7E15163#32 ∧
  (∀ (i : Nat) (h : i + 1 < 44), initialSubkeys[i + 1] = initialSubkeys[i] + 0x9E3779B9#32) ∧
  initialSubkeys[43] = 0x4B32C376#32

/-- R121, R122: a key of b bytes has max(1, ceil(b/4)) words; word j accumulates its bytes, at most four, the first one
highest, so that a full word is K[4j] K[4j+1] K[4j+2] K[4j+3] from bit 31 down and a partial one is right-aligned. -/
def Obligations.KeyWordsPackBigEndian : Prop :=
  ∀ K : List Byte, (keyWords K).length = max 1 ((K.length + 3) / 4) ∧
    (∀ j, (keyWords K).getD j 0 =
      ((K.drop (4 * j)).take 4).foldl (fun (w : Word) b => (w <<< 8) + b.setWidth 32) 0) ∧
    ∀ j, 4 * j + 4 ≤ K.length → (keyWords K).getD j 0 =
      (K.getD (4 * j) 0 ++ K.getD (4 * j + 1) 0 ++ K.getD (4 * j + 2) 0 ++ K.getD (4 * j + 3) 0 : BitVec 32)

/-- R123, R124: KS(K) is the table that 3 * max(c, 44) iterations leave, iteration s working at i = s mod 44 and
j = s mod c with the A of the same iteration. -/
def Obligations.KeyScheduleFollowsMixingLoop : Prop :=
  ∀ K : List Byte, (keySchedule K).toList =
    ((List.range (3 * max (max 1 ((K.length + 3) / 4)) 44)).foldl
      (fun (x : List Word × List Word × Word × Word) s =>
        let i := s % 44
        let j := s % max 1 ((K.length + 3) / 4)
        let A := rotl (x.1.getD i 0 + x.2.2.1 + x.2.2.2) 3
        let B := rotl (x.2.1.getD j 0 + A + x.2.2.2) (((A + x.2.2.2).toNat % 32 : Nat) : Int)
        (x.1.set i A, x.2.1.set j B, A, B))
      (initialSubkeys.toList, keyWords K, 0, 0)).1

/-- R125 (corner cases): two keys with the same key words give the same S. So leading zero bytes `z` of the last key word,
after any whole words `P`, do not change S: a key 00 a b c against a b c, 00 00 a against a, and the same behind a
longer key; keys of 0 to 4 zero bytes give one S. -/
def Obligations.LeadingZeroKeysAgree : Prop :=
  (∀ K K' : List Byte, keyWords K = keyWords K' → keySchedule K = keySchedule K') ∧
  (∀ (P R : List Byte) (z : Nat), P.length % 4 = 0 → R ≠ [] → z + R.length ≤ 4 →
    keyWords (P ++ List.replicate z 0 ++ R) = keyWords (P ++ R) ∧
    keySchedule (P ++ List.replicate z 0 ++ R) = keySchedule (P ++ R)) ∧
  ∀ n, n ≤ 4 → keySchedule (List.replicate n 0) = keySchedule []

/-- R125: a KSCHED within its bounds whose key bytes answer leaves S = KS(key) and KEY_VALID = 1, and nothing else but
the completion. -/
def Obligations.KschedLoadsSchedule : Prop :=
  ∀ s : State, s.keyLen.toNat ≤ s.platform.keyMaxBytes.toNat → s.keyAddr.toNat + s.keyLen.toNat ≤ 2 ^ 32 →
    answers s.platform ⟨s.keyAddr.toNat, s.keyLen.toNat⟩ .read →
    exec .ksched s = .next { s with
      subkeys := keySchedule (s.mem.readList s.keyAddr.toNat s.keyLen.toNat),
      status := ⟨false, true, true, .none⟩ }

/-- R125, R184: KSCHED's errors in priority order; KEY_VALID is 0 and S is unspecified afterwards (the model draws it
free, log entry 3, and nothing is said of it); nothing else but STATUS changes. -/
def Obligations.KschedErrors : Prop :=
  ∀ s : State,
    (s.platform.keyMaxBytes.toNat < s.keyLen.toNat →
      ∃ S n, exec .ksched s = .next { s with subkeys := S, freeCount := n,
                                             status := ⟨false, true, false, .keyTooLong⟩ }) ∧
    (s.keyLen.toNat ≤ s.platform.keyMaxBytes.toNat → 2 ^ 32 < s.keyAddr.toNat + s.keyLen.toNat →
      ∃ S n, exec .ksched s = .next { s with subkeys := S, freeCount := n,
                                             status := ⟨false, true, false, .addrRange⟩ }) ∧
    (s.keyLen.toNat ≤ s.platform.keyMaxBytes.toNat → s.keyAddr.toNat + s.keyLen.toNat ≤ 2 ^ 32 →
      denies s.platform ⟨s.keyAddr.toNat, s.keyLen.toNat⟩ .read →
      ∃ S n, exec .ksched s = .next { s with subkeys := S, freeCount := n,
                                             status := ⟨false, true, false, .busError⟩ })

/-! ### Block cipher (00_scope R10, 42_block_cipher) -/

/-- R10: rotl and rotr are the rule's shifts of an unbounded integer, for s = n mod 32 and any integer amount n; bit k of
rotl x n is bit (k - n) mod 32 of x, and of rotr bit (k + n) mod 32; of an amount that is a word only the low five bits
count; the two undo each other. -/
def Obligations.RotationsInvert : Prop :=
  (∀ (x : Word) (n : Int) (s : Nat), (s : Int) = n % 32 →
    (s ≠ 0 → (rotl x n).toNat = (x.toNat <<< s ||| x.toNat >>> (32 - s)) % 2 ^ 32 ∧
      (rotr x n).toNat = (x.toNat >>> s ||| x.toNat <<< (32 - s)) % 2 ^ 32) ∧
    (s = 0 → rotl x n = x ∧ rotr x n = x)) ∧
  (∀ (x : Word) (n : Int) (k : Nat), k < 32 →
    (rotl x n).getLsbD k = x.getLsbD (((k : Int) - n) % 32).toNat ∧
    (rotr x n).getLsbD k = x.getLsbD (((k : Int) + n) % 32).toNat) ∧
  (∀ x u : Word, rotl x (u.toNat : Nat) = rotl x ((u.extractLsb' 0 5).toNat : Nat) ∧
    rotr x (u.toNat : Nat) = rotr x ((u.extractLsb' 0 5).toNat : Nat)) ∧
  ∀ (x : Word) (n : Int), rotl (rotr x n) n = x ∧ rotr (rotl x n) n = x ∧ rotl x n = rotl x (n % 32) ∧
    rotr x n = rotr x (n % 32) ∧ rotl x n = rotr x (-n)

/-- R142: encWords is the pseudocode of the rule, the rounds 1 .. 20 in order. -/
def Obligations.EncWordsFollowsRounds : Prop :=
  ∀ (S : Subkeys) (a b c d : Word),
    encWords S ⟨a, b, c, d⟩ =
      (fun x : Word × Word × Word × Word => (⟨x.1 + S[42], x.2.1, x.2.2.1 + S[43], x.2.2.2⟩ : Block))
        ((List.range' 1 20).foldl
          (fun (x : Word × Word × Word × Word) j =>
            let t := rotl (x.2.1 * (2 * x.2.1 + 1)) 5
            let u := rotl (x.2.2.2 * (2 * x.2.2.2 + 1)) 5
            (x.2.1, rotl (x.2.2.1 ^^^ u) ((t.toNat % 32 : Nat) : Int) + S.toList.getD (2 * j + 1) 0,
              x.2.2.2, rotl (x.1 ^^^ t) ((u.toNat % 32 : Nat) : Int) + S.toList.getD (2 * j) 0))
          (a, b + S[0], c, d + S[1]))

/-- R143, R144: decryption is the exact inverse of encryption under every S, both ways round. -/
def Obligations.DecryptionInvertsEncryption : Prop :=
  ∀ (S : Subkeys) (x : Block), decWords S (encWords S x) = x ∧ encWords S (decWords S x) = x

/-- R146, R147: with a key, ENCB and DECB transform the block registers and change nothing else but the completion; one
undoes the other. -/
def Obligations.BlockCommandsTransform : Prop :=
  ∀ s : State, s.status.keyValid = true →
    exec .encb s = .next { s with blk := encWords s.subkeys s.blk, status := ⟨false, true, true, .none⟩ } ∧
    exec .decb s = .next { s with blk := decWords s.subkeys s.blk, status := ⟨false, true, true, .none⟩ } ∧
    ∀ t, exec .encb s = .next t → ∃ u, exec .decb t = .next u ∧ u.blk = s.blk

/-- R148, R145: ENCM within its bounds whose bytes answer completes with OUT_LEN = 16*ceil(LEN/16); every byte outside the
destination and every register but STATUS and OUT_LEN stay. Where no block reads a byte already written, block k of the
destination is the encryption of block k of the padded message, each block alone (R150). -/
def Obligations.EncmEncryptsMessage : Prop :=
  ∀ s : State, s.status.keyValid = true → s.len.toNat ≤ 0xFFFFFFF0 → s.srcAddr.toNat + s.len.toNat ≤ 2 ^ 32 →
    s.dstAddr.toNat + 16 * ((s.len.toNat + 15) / 16) ≤ 2 ^ 32 →
    answers s.platform ⟨s.srcAddr.toNat, s.len.toNat⟩ .read →
    answers s.platform ⟨s.dstAddr.toNat, 16 * ((s.len.toNat + 15) / 16)⟩ .write →
    ∃ m, exec .encm s = .next { s with
        mem := m, outLen := BitVec.ofNat 32 (16 * ((s.len.toNat + 15) / 16)),
        status := ⟨false, true, true, .none⟩ } ∧
      sameOutside ⟨s.dstAddr.toNat, 16 * ((s.len.toNat + 15) / 16)⟩ s.mem m ∧
      (readsBeforeWrites s.srcAddr.toNat s.len.toNat s.dstAddr.toNat →
        ∀ k < (s.len.toNat + 15) / 16, m.readList (s.dstAddr.toNat + 16 * k) 16 =
          wordsToBlock (encWords s.subkeys
            (blockToWords (pad (messageAt s.mem s.srcAddr.toNat s.len.toNat)) (16 * k))))

/-- R148, R185, R61: ENCM's errors after NO_KEY, in priority order; INVALID_LENGTH and ADDR_RANGE change STATUS alone;
after BUS_ERROR every byte outside the destination is unchanged. -/
def Obligations.EncmErrors : Prop :=
  ∀ s : State, s.status.keyValid = true →
    (0xFFFFFFF0 < s.len.toNat →
      exec .encm s = .next { s with status := ⟨false, true, true, .invalidLength⟩ }) ∧
    (s.len.toNat ≤ 0xFFFFFFF0 →
      (2 ^ 32 < s.srcAddr.toNat + s.len.toNat ∨ 2 ^ 32 < s.dstAddr.toNat + 16 * ((s.len.toNat + 15) / 16)) →
      exec .encm s = .next { s with status := ⟨false, true, true, .addrRange⟩ }) ∧
    (s.len.toNat ≤ 0xFFFFFFF0 → s.srcAddr.toNat + s.len.toNat ≤ 2 ^ 32 →
      s.dstAddr.toNat + 16 * ((s.len.toNat + 15) / 16) ≤ 2 ^ 32 →
      (denies s.platform ⟨s.srcAddr.toNat, s.len.toNat⟩ .read ∨
        denies s.platform ⟨s.dstAddr.toNat, 16 * ((s.len.toNat + 15) / 16)⟩ .write) →
      ∃ m n, exec .encm s = .next { s with mem := m, freeCount := n, status := ⟨false, true, true, .busError⟩ } ∧
        sameOutside ⟨s.dstAddr.toNat, 16 * ((s.len.toNat + 15) / 16)⟩ s.mem m)

/-- R149: DECM of a whole number of blocks within its bounds whose bytes answer completes with OUT_LEN = LEN; every byte
outside the destination and every register but STATUS and OUT_LEN stay. Where no block reads a byte already written,
block k of the destination is the decryption of block k of the source, padding kept. -/
def Obligations.DecmDecryptsMessage : Prop :=
  ∀ s : State, s.status.keyValid = true → s.len.toNat % 16 = 0 → s.srcAddr.toNat + s.len.toNat ≤ 2 ^ 32 →
    s.dstAddr.toNat + s.len.toNat ≤ 2 ^ 32 →
    answers s.platform ⟨s.srcAddr.toNat, s.len.toNat⟩ .read →
    answers s.platform ⟨s.dstAddr.toNat, s.len.toNat⟩ .write →
    ∃ m, exec .decm s = .next { s with mem := m, outLen := s.len, status := ⟨false, true, true, .none⟩ } ∧
      sameOutside ⟨s.dstAddr.toNat, s.len.toNat⟩ s.mem m ∧
      (readsBeforeWrites s.srcAddr.toNat s.len.toNat s.dstAddr.toNat →
        ∀ k < s.len.toNat / 16, m.readList (s.dstAddr.toNat + 16 * k) 16 =
          wordsToBlock (decWords s.subkeys
            (blockToWords (messageAt s.mem s.srcAddr.toNat s.len.toNat) (16 * k))))

/-- R149, R185, R61: DECM's errors after NO_KEY, in priority order; INVALID_LENGTH and ADDR_RANGE change STATUS alone;
after BUS_ERROR every byte outside the destination is unchanged. -/
def Obligations.DecmErrors : Prop :=
  ∀ s : State, s.status.keyValid = true →
    (s.len.toNat % 16 ≠ 0 →
      exec .decm s = .next { s with status := ⟨false, true, true, .invalidLength⟩ }) ∧
    (s.len.toNat % 16 = 0 →
      (2 ^ 32 < s.srcAddr.toNat + s.len.toNat ∨ 2 ^ 32 < s.dstAddr.toNat + s.len.toNat) →
      exec .decm s = .next { s with status := ⟨false, true, true, .addrRange⟩ }) ∧
    (s.len.toNat % 16 = 0 → s.srcAddr.toNat + s.len.toNat ≤ 2 ^ 32 → s.dstAddr.toNat + s.len.toNat ≤ 2 ^ 32 →
      (denies s.platform ⟨s.srcAddr.toNat, s.len.toNat⟩ .read ∨
        denies s.platform ⟨s.dstAddr.toNat, s.len.toNat⟩ .write) →
      ∃ m n, exec .decm s = .next { s with mem := m, freeCount := n, status := ⟨false, true, true, .busError⟩ } ∧
        sameOutside ⟨s.dstAddr.toNat, s.len.toNat⟩ s.mem m)

/-- R58, R59: however source and destination overlap, ENCM and DECM work block by block: there are memories M 0, M 1, …
from the one before to the one after, and M (k+1) is M k with the 16 destination bytes of block k set to the transform of
block k as M k holds it. -/
def Obligations.MessageBlocksInOrder : Prop :=
  ∀ s : State, s.status.keyValid = true → s.srcAddr.toNat + s.len.toNat ≤ 2 ^ 32 →
    s.dstAddr.toNat + 16 * ((s.len.toNat + 15) / 16) ≤ 2 ^ 32 →
    answers s.platform ⟨s.srcAddr.toNat, s.len.toNat⟩ .read →
    answers s.platform ⟨s.dstAddr.toNat, 16 * ((s.len.toNat + 15) / 16)⟩ .write →
    (s.len.toNat ≤ 0xFFFFFFF0 → ∃ (M : Nat → Memory) (t : State), exec .encm s = .next t ∧ M 0 = s.mem ∧
      t.mem = M ((s.len.toNat + 15) / 16) ∧ ∀ k < (s.len.toNat + 15) / 16,
        sameOutside ⟨s.dstAddr.toNat + 16 * k, 16⟩ (M k) (M (k + 1)) ∧
        messageAt (M (k + 1)) (s.dstAddr.toNat + 16 * k) 16 =
          wordsToBlock (encWords s.subkeys
            (blockToWords (pad (messageAt (M k) s.srcAddr.toNat s.len.toNat)) (16 * k)))) ∧
    (s.len.toNat % 16 = 0 → ∃ (M : Nat → Memory) (t : State), exec .decm s = .next t ∧ M 0 = s.mem ∧
      t.mem = M (s.len.toNat / 16) ∧ ∀ k < s.len.toNat / 16,
        sameOutside ⟨s.dstAddr.toNat + 16 * k, 16⟩ (M k) (M (k + 1)) ∧
        messageAt (M (k + 1)) (s.dstAddr.toNat + 16 * k) 16 =
          wordsToBlock (decWords s.subkeys
            (blockToWords (messageAt (M k) s.srcAddr.toNat s.len.toNat) (16 * k))))

/-- R150: `Decrypt(Encrypt(p)) == pad(p)` for all p: ENCM of a message to a destination that does not start inside its
source (in place is allowed), then DECM of what it wrote to any place that does not start inside the ciphertext (in
place is allowed), leaves the padded message there. -/
def Obligations.DecmAfterEncmGivesPaddedMessage : Prop :=
  ∀ (s : State) (d : Word), s.status.keyValid = true → s.len.toNat ≤ 0xFFFFFFF0 →
    s.srcAddr.toNat + s.len.toNat ≤ 2 ^ 32 →
    s.dstAddr.toNat + 16 * ((s.len.toNat + 15) / 16) ≤ 2 ^ 32 →
    d.toNat + 16 * ((s.len.toNat + 15) / 16) ≤ 2 ^ 32 →
    answers s.platform ⟨s.srcAddr.toNat, s.len.toNat⟩ .read →
    answers s.platform ⟨s.dstAddr.toNat, 16 * ((s.len.toNat + 15) / 16)⟩ .write →
    answers s.platform ⟨s.dstAddr.toNat, 16 * ((s.len.toNat + 15) / 16)⟩ .read →
    answers s.platform ⟨d.toNat, 16 * ((s.len.toNat + 15) / 16)⟩ .write →
    readsBeforeWrites s.srcAddr.toNat s.len.toNat s.dstAddr.toNat →
    readsBeforeWrites s.dstAddr.toNat (16 * ((s.len.toNat + 15) / 16)) d.toNat →
    ∃ t u, exec .encm s = .next t ∧
      exec .decm { t with srcAddr := s.dstAddr, dstAddr := d, len := t.outLen } = .next u ∧
      u.status.err = .none ∧ u.outLen.toNat = 16 * ((s.len.toNat + 15) / 16) ∧
      messageAt u.mem d.toNat (16 * ((s.len.toNat + 15) / 16)) = pad (messageAt s.mem s.srcAddr.toNat s.len.toNat)

/-- R150: ENCB agrees with ENCM on one block, and DECB with DECM. -/
def Obligations.BlockAndMessageCommandsAgree : Prop :=
  ∀ (s t u : State), s.status.keyValid = true → s.len.toNat = 16 → s.srcAddr.toNat + 16 ≤ 2 ^ 32 →
    s.dstAddr.toNat + 16 ≤ 2 ^ 32 → answers s.platform ⟨s.srcAddr.toNat, 16⟩ .read →
    answers s.platform ⟨s.dstAddr.toNat, 16⟩ .write →
    exec .encb { s with blk := blockToWords (messageAt s.mem s.srcAddr.toNat 16) 0 } = .next t →
    exec .decb { s with blk := blockToWords (messageAt s.mem s.srcAddr.toNat 16) 0 } = .next u →
    ∃ t' u', exec .encm s = .next t' ∧ messageAt t'.mem s.dstAddr.toNat 16 = wordsToBlock t.blk ∧
      exec .decm s = .next u' ∧ messageAt u'.mem s.dstAddr.toNat 16 = wordsToBlock u.blk
end

