-- ==== Sys2Proof/Laws/State.lean ====
section
/-! SUPPORT. What each state update leaves in each field, so that no later proof unfolds a record update. -/

namespace Sys2Proof.Machine.State

variable (s : State)

@[simp] theorem setWord_platform (v : Word) : (s.setWord v).platform = s.platform := rfl
@[simp] theorem setWord_status (v : Word) : (s.setWord v).status = s.status := rfl
@[simp] theorem setWord_keyAddr (v : Word) : (s.setWord v).keyAddr = s.keyAddr := rfl
@[simp] theorem setWord_keyLen (v : Word) : (s.setWord v).keyLen = s.keyLen := rfl
@[simp] theorem setWord_srcAddr (v : Word) : (s.setWord v).srcAddr = s.srcAddr := rfl
@[simp] theorem setWord_dstAddr (v : Word) : (s.setWord v).dstAddr = s.dstAddr := rfl
@[simp] theorem setWord_len (v : Word) : (s.setWord v).len = s.len := rfl
@[simp] theorem setWord_offset (v : Word) : (s.setWord v).offset = s.offset := rfl
@[simp] theorem setWord_outLen (v : Word) : (s.setWord v).outLen = s.outLen := rfl
@[simp] theorem setWord_word (v : Word) : (s.setWord v).word = v := rfl
@[simp] theorem setWord_blk (v : Word) : (s.setWord v).blk = s.blk := rfl
@[simp] theorem setWord_subkeys (v : Word) : (s.setWord v).subkeys = s.subkeys := rfl
@[simp] theorem setWord_pending (v : Word) : (s.setWord v).pending = s.pending := rfl
@[simp] theorem setWord_mem (v : Word) : (s.setWord v).mem = s.mem := rfl
@[simp] theorem setWord_agenda (v : Word) : (s.setWord v).agenda = s.agenda := rfl
@[simp] theorem setWord_readData (v : Word) : (s.setWord v).readData = s.readData := rfl
@[simp] theorem setWord_unsynced (v : Word) : (s.setWord v).unsynced = s.unsynced := rfl
@[simp] theorem setWord_freeCount (v : Word) : (s.setWord v).freeCount = s.freeCount := rfl

@[simp] theorem setBlk_platform (b : Block) : (s.setBlk b).platform = s.platform := rfl
@[simp] theorem setBlk_status (b : Block) : (s.setBlk b).status = s.status := rfl
@[simp] theorem setBlk_keyAddr (b : Block) : (s.setBlk b).keyAddr = s.keyAddr := rfl
@[simp] theorem setBlk_keyLen (b : Block) : (s.setBlk b).keyLen = s.keyLen := rfl
@[simp] theorem setBlk_srcAddr (b : Block) : (s.setBlk b).srcAddr = s.srcAddr := rfl
@[simp] theorem setBlk_dstAddr (b : Block) : (s.setBlk b).dstAddr = s.dstAddr := rfl
@[simp] theorem setBlk_len (b : Block) : (s.setBlk b).len = s.len := rfl
@[simp] theorem setBlk_offset (b : Block) : (s.setBlk b).offset = s.offset := rfl
@[simp] theorem setBlk_outLen (b : Block) : (s.setBlk b).outLen = s.outLen := rfl
@[simp] theorem setBlk_word (b : Block) : (s.setBlk b).word = s.word := rfl
@[simp] theorem setBlk_blk (b : Block) : (s.setBlk b).blk = b := rfl
@[simp] theorem setBlk_subkeys (b : Block) : (s.setBlk b).subkeys = s.subkeys := rfl
@[simp] theorem setBlk_pending (b : Block) : (s.setBlk b).pending = s.pending := rfl
@[simp] theorem setBlk_mem (b : Block) : (s.setBlk b).mem = s.mem := rfl
@[simp] theorem setBlk_agenda (b : Block) : (s.setBlk b).agenda = s.agenda := rfl
@[simp] theorem setBlk_readData (b : Block) : (s.setBlk b).readData = s.readData := rfl
@[simp] theorem setBlk_unsynced (b : Block) : (s.setBlk b).unsynced = s.unsynced := rfl
@[simp] theorem setBlk_freeCount (b : Block) : (s.setBlk b).freeCount = s.freeCount := rfl

@[simp] theorem setMem_platform (m : Memory) : (s.setMem m).platform = s.platform := rfl
@[simp] theorem setMem_status (m : Memory) : (s.setMem m).status = s.status := rfl
@[simp] theorem setMem_keyAddr (m : Memory) : (s.setMem m).keyAddr = s.keyAddr := rfl
@[simp] theorem setMem_keyLen (m : Memory) : (s.setMem m).keyLen = s.keyLen := rfl
@[simp] theorem setMem_srcAddr (m : Memory) : (s.setMem m).srcAddr = s.srcAddr := rfl
@[simp] theorem setMem_dstAddr (m : Memory) : (s.setMem m).dstAddr = s.dstAddr := rfl
@[simp] theorem setMem_len (m : Memory) : (s.setMem m).len = s.len := rfl
@[simp] theorem setMem_offset (m : Memory) : (s.setMem m).offset = s.offset := rfl
@[simp] theorem setMem_outLen (m : Memory) : (s.setMem m).outLen = s.outLen := rfl
@[simp] theorem setMem_word (m : Memory) : (s.setMem m).word = s.word := rfl
@[simp] theorem setMem_blk (m : Memory) : (s.setMem m).blk = s.blk := rfl
@[simp] theorem setMem_subkeys (m : Memory) : (s.setMem m).subkeys = s.subkeys := rfl
@[simp] theorem setMem_pending (m : Memory) : (s.setMem m).pending = s.pending := rfl
@[simp] theorem setMem_mem (m : Memory) : (s.setMem m).mem = m := rfl
@[simp] theorem setMem_agenda (m : Memory) : (s.setMem m).agenda = s.agenda := rfl
@[simp] theorem setMem_readData (m : Memory) : (s.setMem m).readData = s.readData := rfl
@[simp] theorem setMem_unsynced (m : Memory) : (s.setMem m).unsynced = s.unsynced := rfl
@[simp] theorem setMem_freeCount (m : Memory) : (s.setMem m).freeCount = s.freeCount := rfl

@[simp] theorem setOutLen_platform (v : Word) : (s.setOutLen v).platform = s.platform := rfl
@[simp] theorem setOutLen_status (v : Word) : (s.setOutLen v).status = s.status := rfl
@[simp] theorem setOutLen_keyAddr (v : Word) : (s.setOutLen v).keyAddr = s.keyAddr := rfl
@[simp] theorem setOutLen_keyLen (v : Word) : (s.setOutLen v).keyLen = s.keyLen := rfl
@[simp] theorem setOutLen_srcAddr (v : Word) : (s.setOutLen v).srcAddr = s.srcAddr := rfl
@[simp] theorem setOutLen_dstAddr (v : Word) : (s.setOutLen v).dstAddr = s.dstAddr := rfl
@[simp] theorem setOutLen_len (v : Word) : (s.setOutLen v).len = s.len := rfl
@[simp] theorem setOutLen_offset (v : Word) : (s.setOutLen v).offset = s.offset := rfl
@[simp] theorem setOutLen_outLen (v : Word) : (s.setOutLen v).outLen = v := rfl
@[simp] theorem setOutLen_word (v : Word) : (s.setOutLen v).word = s.word := rfl
@[simp] theorem setOutLen_blk (v : Word) : (s.setOutLen v).blk = s.blk := rfl
@[simp] theorem setOutLen_subkeys (v : Word) : (s.setOutLen v).subkeys = s.subkeys := rfl
@[simp] theorem setOutLen_pending (v : Word) : (s.setOutLen v).pending = s.pending := rfl
@[simp] theorem setOutLen_mem (v : Word) : (s.setOutLen v).mem = s.mem := rfl
@[simp] theorem setOutLen_agenda (v : Word) : (s.setOutLen v).agenda = s.agenda := rfl
@[simp] theorem setOutLen_readData (v : Word) : (s.setOutLen v).readData = s.readData := rfl
@[simp] theorem setOutLen_unsynced (v : Word) : (s.setOutLen v).unsynced = s.unsynced := rfl
@[simp] theorem setOutLen_freeCount (v : Word) : (s.setOutLen v).freeCount = s.freeCount := rfl

@[simp] theorem setSubkeys_platform (S : Subkeys) : (s.setSubkeys S).platform = s.platform := rfl
@[simp] theorem setSubkeys_status (S : Subkeys) : (s.setSubkeys S).status = s.status := rfl
@[simp] theorem setSubkeys_keyAddr (S : Subkeys) : (s.setSubkeys S).keyAddr = s.keyAddr := rfl
@[simp] theorem setSubkeys_keyLen (S : Subkeys) : (s.setSubkeys S).keyLen = s.keyLen := rfl
@[simp] theorem setSubkeys_srcAddr (S : Subkeys) : (s.setSubkeys S).srcAddr = s.srcAddr := rfl
@[simp] theorem setSubkeys_dstAddr (S : Subkeys) : (s.setSubkeys S).dstAddr = s.dstAddr := rfl
@[simp] theorem setSubkeys_len (S : Subkeys) : (s.setSubkeys S).len = s.len := rfl
@[simp] theorem setSubkeys_offset (S : Subkeys) : (s.setSubkeys S).offset = s.offset := rfl
@[simp] theorem setSubkeys_outLen (S : Subkeys) : (s.setSubkeys S).outLen = s.outLen := rfl
@[simp] theorem setSubkeys_word (S : Subkeys) : (s.setSubkeys S).word = s.word := rfl
@[simp] theorem setSubkeys_blk (S : Subkeys) : (s.setSubkeys S).blk = s.blk := rfl
@[simp] theorem setSubkeys_subkeys (S : Subkeys) : (s.setSubkeys S).subkeys = S := rfl
@[simp] theorem setSubkeys_pending (S : Subkeys) : (s.setSubkeys S).pending = s.pending := rfl
@[simp] theorem setSubkeys_mem (S : Subkeys) : (s.setSubkeys S).mem = s.mem := rfl
@[simp] theorem setSubkeys_agenda (S : Subkeys) : (s.setSubkeys S).agenda = s.agenda := rfl
@[simp] theorem setSubkeys_readData (S : Subkeys) : (s.setSubkeys S).readData = s.readData := rfl
@[simp] theorem setSubkeys_unsynced (S : Subkeys) : (s.setSubkeys S).unsynced = s.unsynced := rfl
@[simp] theorem setSubkeys_freeCount (S : Subkeys) : (s.setSubkeys S).freeCount = s.freeCount := rfl

@[simp] theorem setKeyValid_platform (b : Bool) : (s.setKeyValid b).platform = s.platform := rfl
@[simp] theorem setKeyValid_status (b : Bool) : (s.setKeyValid b).status = { s.status with keyValid := b } := rfl
@[simp] theorem setKeyValid_keyAddr (b : Bool) : (s.setKeyValid b).keyAddr = s.keyAddr := rfl
@[simp] theorem setKeyValid_keyLen (b : Bool) : (s.setKeyValid b).keyLen = s.keyLen := rfl
@[simp] theorem setKeyValid_srcAddr (b : Bool) : (s.setKeyValid b).srcAddr = s.srcAddr := rfl
@[simp] theorem setKeyValid_dstAddr (b : Bool) : (s.setKeyValid b).dstAddr = s.dstAddr := rfl
@[simp] theorem setKeyValid_len (b : Bool) : (s.setKeyValid b).len = s.len := rfl
@[simp] theorem setKeyValid_offset (b : Bool) : (s.setKeyValid b).offset = s.offset := rfl
@[simp] theorem setKeyValid_outLen (b : Bool) : (s.setKeyValid b).outLen = s.outLen := rfl
@[simp] theorem setKeyValid_word (b : Bool) : (s.setKeyValid b).word = s.word := rfl
@[simp] theorem setKeyValid_blk (b : Bool) : (s.setKeyValid b).blk = s.blk := rfl
@[simp] theorem setKeyValid_subkeys (b : Bool) : (s.setKeyValid b).subkeys = s.subkeys := rfl
@[simp] theorem setKeyValid_pending (b : Bool) : (s.setKeyValid b).pending = s.pending := rfl
@[simp] theorem setKeyValid_mem (b : Bool) : (s.setKeyValid b).mem = s.mem := rfl
@[simp] theorem setKeyValid_agenda (b : Bool) : (s.setKeyValid b).agenda = s.agenda := rfl
@[simp] theorem setKeyValid_readData (b : Bool) : (s.setKeyValid b).readData = s.readData := rfl
@[simp] theorem setKeyValid_unsynced (b : Bool) : (s.setKeyValid b).unsynced = s.unsynced := rfl
@[simp] theorem setKeyValid_freeCount (b : Bool) : (s.setKeyValid b).freeCount = s.freeCount := rfl

@[simp] theorem finish_platform (e : ErrCode) : (s.finish e).platform = s.platform := rfl
@[simp] theorem finish_status (e : ErrCode) : (s.finish e).status = ⟨false, true, s.status.keyValid, e⟩ := rfl
@[simp] theorem finish_keyAddr (e : ErrCode) : (s.finish e).keyAddr = s.keyAddr := rfl
@[simp] theorem finish_keyLen (e : ErrCode) : (s.finish e).keyLen = s.keyLen := rfl
@[simp] theorem finish_srcAddr (e : ErrCode) : (s.finish e).srcAddr = s.srcAddr := rfl
@[simp] theorem finish_dstAddr (e : ErrCode) : (s.finish e).dstAddr = s.dstAddr := rfl
@[simp] theorem finish_len (e : ErrCode) : (s.finish e).len = s.len := rfl
@[simp] theorem finish_offset (e : ErrCode) : (s.finish e).offset = s.offset := rfl
@[simp] theorem finish_outLen (e : ErrCode) : (s.finish e).outLen = s.outLen := rfl
@[simp] theorem finish_word (e : ErrCode) : (s.finish e).word = s.word := rfl
@[simp] theorem finish_blk (e : ErrCode) : (s.finish e).blk = s.blk := rfl
@[simp] theorem finish_subkeys (e : ErrCode) : (s.finish e).subkeys = s.subkeys := rfl
@[simp] theorem finish_pending (e : ErrCode) : (s.finish e).pending = s.pending := rfl
@[simp] theorem finish_mem (e : ErrCode) : (s.finish e).mem = s.mem := rfl
@[simp] theorem finish_agenda (e : ErrCode) : (s.finish e).agenda = s.agenda := rfl
@[simp] theorem finish_readData (e : ErrCode) : (s.finish e).readData = s.readData := rfl
@[simp] theorem finish_unsynced (e : ErrCode) : (s.finish e).unsynced = s.unsynced := rfl
@[simp] theorem finish_freeCount (e : ErrCode) : (s.finish e).freeCount = s.freeCount := rfl

@[simp] theorem answer_platform (v : Word) : (s.answer v).platform = s.platform := rfl
@[simp] theorem answer_status (v : Word) : (s.answer v).status = s.status := rfl
@[simp] theorem answer_keyAddr (v : Word) : (s.answer v).keyAddr = s.keyAddr := rfl
@[simp] theorem answer_keyLen (v : Word) : (s.answer v).keyLen = s.keyLen := rfl
@[simp] theorem answer_srcAddr (v : Word) : (s.answer v).srcAddr = s.srcAddr := rfl
@[simp] theorem answer_dstAddr (v : Word) : (s.answer v).dstAddr = s.dstAddr := rfl
@[simp] theorem answer_len (v : Word) : (s.answer v).len = s.len := rfl
@[simp] theorem answer_offset (v : Word) : (s.answer v).offset = s.offset := rfl
@[simp] theorem answer_outLen (v : Word) : (s.answer v).outLen = s.outLen := rfl
@[simp] theorem answer_word (v : Word) : (s.answer v).word = s.word := rfl
@[simp] theorem answer_blk (v : Word) : (s.answer v).blk = s.blk := rfl
@[simp] theorem answer_subkeys (v : Word) : (s.answer v).subkeys = s.subkeys := rfl
@[simp] theorem answer_pending (v : Word) : (s.answer v).pending = s.pending := rfl
@[simp] theorem answer_mem (v : Word) : (s.answer v).mem = s.mem := rfl
@[simp] theorem answer_agenda (v : Word) : (s.answer v).agenda = s.agenda := rfl
@[simp] theorem answer_readData (v : Word) : (s.answer v).readData = v := rfl
@[simp] theorem answer_unsynced (v : Word) : (s.answer v).unsynced = s.unsynced := rfl
@[simp] theorem answer_freeCount (v : Word) : (s.answer v).freeCount = s.freeCount := rfl

@[simp] theorem answerFree_platform : (s.answerFree).platform = s.platform := rfl
@[simp] theorem answerFree_status : (s.answerFree).status = s.status := rfl
@[simp] theorem answerFree_keyAddr : (s.answerFree).keyAddr = s.keyAddr := rfl
@[simp] theorem answerFree_keyLen : (s.answerFree).keyLen = s.keyLen := rfl
@[simp] theorem answerFree_srcAddr : (s.answerFree).srcAddr = s.srcAddr := rfl
@[simp] theorem answerFree_dstAddr : (s.answerFree).dstAddr = s.dstAddr := rfl
@[simp] theorem answerFree_len : (s.answerFree).len = s.len := rfl
@[simp] theorem answerFree_offset : (s.answerFree).offset = s.offset := rfl
@[simp] theorem answerFree_outLen : (s.answerFree).outLen = s.outLen := rfl
@[simp] theorem answerFree_word : (s.answerFree).word = s.word := rfl
@[simp] theorem answerFree_blk : (s.answerFree).blk = s.blk := rfl
@[simp] theorem answerFree_subkeys : (s.answerFree).subkeys = s.subkeys := rfl
@[simp] theorem answerFree_pending : (s.answerFree).pending = s.pending := rfl
@[simp] theorem answerFree_mem : (s.answerFree).mem = s.mem := rfl
@[simp] theorem answerFree_agenda : (s.answerFree).agenda = s.agenda := rfl
@[simp] theorem answerFree_readData : (s.answerFree).readData = Config.freeWord s.freeCount := rfl
@[simp] theorem answerFree_unsynced : (s.answerFree).unsynced = s.unsynced := rfl
@[simp] theorem answerFree_freeCount : (s.answerFree).freeCount = s.freeCount + 1 := rfl

@[simp] theorem loseSubkeys_platform : (s.loseSubkeys).platform = s.platform := rfl
@[simp] theorem loseSubkeys_status : (s.loseSubkeys).status = s.status := rfl
@[simp] theorem loseSubkeys_keyAddr : (s.loseSubkeys).keyAddr = s.keyAddr := rfl
@[simp] theorem loseSubkeys_keyLen : (s.loseSubkeys).keyLen = s.keyLen := rfl
@[simp] theorem loseSubkeys_srcAddr : (s.loseSubkeys).srcAddr = s.srcAddr := rfl
@[simp] theorem loseSubkeys_dstAddr : (s.loseSubkeys).dstAddr = s.dstAddr := rfl
@[simp] theorem loseSubkeys_len : (s.loseSubkeys).len = s.len := rfl
@[simp] theorem loseSubkeys_offset : (s.loseSubkeys).offset = s.offset := rfl
@[simp] theorem loseSubkeys_outLen : (s.loseSubkeys).outLen = s.outLen := rfl
@[simp] theorem loseSubkeys_word : (s.loseSubkeys).word = s.word := rfl
@[simp] theorem loseSubkeys_blk : (s.loseSubkeys).blk = s.blk := rfl
@[simp] theorem loseSubkeys_subkeys : (s.loseSubkeys).subkeys = freeSubkeys s.freeCount := rfl
@[simp] theorem loseSubkeys_pending : (s.loseSubkeys).pending = s.pending := rfl
@[simp] theorem loseSubkeys_mem : (s.loseSubkeys).mem = s.mem := rfl
@[simp] theorem loseSubkeys_agenda : (s.loseSubkeys).agenda = s.agenda := rfl
@[simp] theorem loseSubkeys_readData : (s.loseSubkeys).readData = s.readData := rfl
@[simp] theorem loseSubkeys_unsynced : (s.loseSubkeys).unsynced = s.unsynced := rfl
@[simp] theorem loseSubkeys_freeCount : (s.loseSubkeys).freeCount = s.freeCount + 44 := rfl

@[simp] theorem loseWord_platform : (s.loseWord).platform = s.platform := rfl
@[simp] theorem loseWord_status : (s.loseWord).status = s.status := rfl
@[simp] theorem loseWord_keyAddr : (s.loseWord).keyAddr = s.keyAddr := rfl
@[simp] theorem loseWord_keyLen : (s.loseWord).keyLen = s.keyLen := rfl
@[simp] theorem loseWord_srcAddr : (s.loseWord).srcAddr = s.srcAddr := rfl
@[simp] theorem loseWord_dstAddr : (s.loseWord).dstAddr = s.dstAddr := rfl
@[simp] theorem loseWord_len : (s.loseWord).len = s.len := rfl
@[simp] theorem loseWord_offset : (s.loseWord).offset = s.offset := rfl
@[simp] theorem loseWord_outLen : (s.loseWord).outLen = s.outLen := rfl
@[simp] theorem loseWord_word : (s.loseWord).word = Config.freeWord s.freeCount := rfl
@[simp] theorem loseWord_blk : (s.loseWord).blk = s.blk := rfl
@[simp] theorem loseWord_subkeys : (s.loseWord).subkeys = s.subkeys := rfl
@[simp] theorem loseWord_pending : (s.loseWord).pending = s.pending := rfl
@[simp] theorem loseWord_mem : (s.loseWord).mem = s.mem := rfl
@[simp] theorem loseWord_agenda : (s.loseWord).agenda = s.agenda := rfl
@[simp] theorem loseWord_readData : (s.loseWord).readData = s.readData := rfl
@[simp] theorem loseWord_unsynced : (s.loseWord).unsynced = s.unsynced := rfl
@[simp] theorem loseWord_freeCount : (s.loseWord).freeCount = s.freeCount + 1 := rfl

@[simp] theorem loseOutLen_platform : (s.loseOutLen).platform = s.platform := rfl
@[simp] theorem loseOutLen_status : (s.loseOutLen).status = s.status := rfl
@[simp] theorem loseOutLen_keyAddr : (s.loseOutLen).keyAddr = s.keyAddr := rfl
@[simp] theorem loseOutLen_keyLen : (s.loseOutLen).keyLen = s.keyLen := rfl
@[simp] theorem loseOutLen_srcAddr : (s.loseOutLen).srcAddr = s.srcAddr := rfl
@[simp] theorem loseOutLen_dstAddr : (s.loseOutLen).dstAddr = s.dstAddr := rfl
@[simp] theorem loseOutLen_len : (s.loseOutLen).len = s.len := rfl
@[simp] theorem loseOutLen_offset : (s.loseOutLen).offset = s.offset := rfl
@[simp] theorem loseOutLen_outLen : (s.loseOutLen).outLen = Config.freeWord s.freeCount := rfl
@[simp] theorem loseOutLen_word : (s.loseOutLen).word = s.word := rfl
@[simp] theorem loseOutLen_blk : (s.loseOutLen).blk = s.blk := rfl
@[simp] theorem loseOutLen_subkeys : (s.loseOutLen).subkeys = s.subkeys := rfl
@[simp] theorem loseOutLen_pending : (s.loseOutLen).pending = s.pending := rfl
@[simp] theorem loseOutLen_mem : (s.loseOutLen).mem = s.mem := rfl
@[simp] theorem loseOutLen_agenda : (s.loseOutLen).agenda = s.agenda := rfl
@[simp] theorem loseOutLen_readData : (s.loseOutLen).readData = s.readData := rfl
@[simp] theorem loseOutLen_unsynced : (s.loseOutLen).unsynced = s.unsynced := rfl
@[simp] theorem loseOutLen_freeCount : (s.loseOutLen).freeCount = s.freeCount + 1 := rfl

@[simp] theorem loseBlk_platform : (s.loseBlk).platform = s.platform := rfl
@[simp] theorem loseBlk_status : (s.loseBlk).status = s.status := rfl
@[simp] theorem loseBlk_keyAddr : (s.loseBlk).keyAddr = s.keyAddr := rfl
@[simp] theorem loseBlk_keyLen : (s.loseBlk).keyLen = s.keyLen := rfl
@[simp] theorem loseBlk_srcAddr : (s.loseBlk).srcAddr = s.srcAddr := rfl
@[simp] theorem loseBlk_dstAddr : (s.loseBlk).dstAddr = s.dstAddr := rfl
@[simp] theorem loseBlk_len : (s.loseBlk).len = s.len := rfl
@[simp] theorem loseBlk_offset : (s.loseBlk).offset = s.offset := rfl
@[simp] theorem loseBlk_outLen : (s.loseBlk).outLen = s.outLen := rfl
@[simp] theorem loseBlk_word : (s.loseBlk).word = s.word := rfl
@[simp] theorem loseBlk_blk : (s.loseBlk).blk = ⟨Config.freeWord s.freeCount, Config.freeWord (s.freeCount + 1), Config.freeWord (s.freeCount + 2), Config.freeWord (s.freeCount + 3)⟩ := rfl
@[simp] theorem loseBlk_subkeys : (s.loseBlk).subkeys = s.subkeys := rfl
@[simp] theorem loseBlk_pending : (s.loseBlk).pending = s.pending := rfl
@[simp] theorem loseBlk_mem : (s.loseBlk).mem = s.mem := rfl
@[simp] theorem loseBlk_agenda : (s.loseBlk).agenda = s.agenda := rfl
@[simp] theorem loseBlk_readData : (s.loseBlk).readData = s.readData := rfl
@[simp] theorem loseBlk_unsynced : (s.loseBlk).unsynced = s.unsynced := rfl
@[simp] theorem loseBlk_freeCount : (s.loseBlk).freeCount = s.freeCount + 4 := rfl

@[simp] theorem loseBytes_platform (r : Region) : (s.loseBytes r).platform = s.platform := rfl
@[simp] theorem loseBytes_status (r : Region) : (s.loseBytes r).status = s.status := rfl
@[simp] theorem loseBytes_keyAddr (r : Region) : (s.loseBytes r).keyAddr = s.keyAddr := rfl
@[simp] theorem loseBytes_keyLen (r : Region) : (s.loseBytes r).keyLen = s.keyLen := rfl
@[simp] theorem loseBytes_srcAddr (r : Region) : (s.loseBytes r).srcAddr = s.srcAddr := rfl
@[simp] theorem loseBytes_dstAddr (r : Region) : (s.loseBytes r).dstAddr = s.dstAddr := rfl
@[simp] theorem loseBytes_len (r : Region) : (s.loseBytes r).len = s.len := rfl
@[simp] theorem loseBytes_offset (r : Region) : (s.loseBytes r).offset = s.offset := rfl
@[simp] theorem loseBytes_outLen (r : Region) : (s.loseBytes r).outLen = s.outLen := rfl
@[simp] theorem loseBytes_word (r : Region) : (s.loseBytes r).word = s.word := rfl
@[simp] theorem loseBytes_blk (r : Region) : (s.loseBytes r).blk = s.blk := rfl
@[simp] theorem loseBytes_subkeys (r : Region) : (s.loseBytes r).subkeys = s.subkeys := rfl
@[simp] theorem loseBytes_pending (r : Region) : (s.loseBytes r).pending = s.pending := rfl
@[simp] theorem loseBytes_mem (r : Region) : (s.loseBytes r).mem = Memory.scramble s.mem r.base s.freeCount (clipRegion r).size := rfl
@[simp] theorem loseBytes_agenda (r : Region) : (s.loseBytes r).agenda = s.agenda := rfl
@[simp] theorem loseBytes_readData (r : Region) : (s.loseBytes r).readData = s.readData := rfl
@[simp] theorem loseBytes_unsynced (r : Region) : (s.loseBytes r).unsynced = s.unsynced := rfl
@[simp] theorem loseBytes_freeCount (r : Region) : (s.loseBytes r).freeCount = s.freeCount + (clipRegion r).size := rfl

@[simp] theorem touch_platform (a : Nat) (k : AccessKind) : (s.touch a k).platform = s.platform := rfl
@[simp] theorem touch_status (a : Nat) (k : AccessKind) : (s.touch a k).status = s.status := rfl
@[simp] theorem touch_keyAddr (a : Nat) (k : AccessKind) : (s.touch a k).keyAddr = s.keyAddr := rfl
@[simp] theorem touch_keyLen (a : Nat) (k : AccessKind) : (s.touch a k).keyLen = s.keyLen := rfl
@[simp] theorem touch_srcAddr (a : Nat) (k : AccessKind) : (s.touch a k).srcAddr = s.srcAddr := rfl
@[simp] theorem touch_dstAddr (a : Nat) (k : AccessKind) : (s.touch a k).dstAddr = s.dstAddr := rfl
@[simp] theorem touch_len (a : Nat) (k : AccessKind) : (s.touch a k).len = s.len := rfl
@[simp] theorem touch_offset (a : Nat) (k : AccessKind) : (s.touch a k).offset = s.offset := rfl
@[simp] theorem touch_outLen (a : Nat) (k : AccessKind) : (s.touch a k).outLen = s.outLen := rfl
@[simp] theorem touch_word (a : Nat) (k : AccessKind) : (s.touch a k).word = s.word := rfl
@[simp] theorem touch_blk (a : Nat) (k : AccessKind) : (s.touch a k).blk = s.blk := rfl
@[simp] theorem touch_subkeys (a : Nat) (k : AccessKind) : (s.touch a k).subkeys = s.subkeys := rfl
@[simp] theorem touch_pending (a : Nat) (k : AccessKind) : (s.touch a k).pending = s.pending := rfl
@[simp] theorem touch_mem (a : Nat) (k : AccessKind) : (s.touch a k).mem = s.mem := rfl
@[simp] theorem touch_agenda (a : Nat) (k : AccessKind) : (s.touch a k).agenda = s.agenda := rfl
@[simp] theorem touch_readData (a : Nat) (k : AccessKind) : (s.touch a k).readData = s.readData := rfl
@[simp] theorem touch_unsynced (a : Nat) (k : AccessKind) : (s.touch a k).unsynced = s.unsynced.map (markRaced a k) := rfl
@[simp] theorem touch_freeCount (a : Nat) (k : AccessKind) : (s.touch a k).freeCount = s.freeCount := rfl

end Sys2Proof.Machine.State
end

