-- ==== Sys2Proof/Laws/Memory.lean ====
section
/-! SUPPORT. Data memory: reads after writes, the canonical form, MEM_OK (20_memory). -/

namespace Sys2Proof.Machine

/-! ### Regions -/

theorem regionHas_iff (r : Region) (a : Nat) : regionHas r a = true ↔ r.base ≤ a ∧ a < r.base + r.size := by
  simp [regionHas]

theorem regionHas_false_iff (r : Region) (a : Nat) :
    regionHas r a = false ↔ ¬(r.base ≤ a ∧ a < r.base + r.size) := by
  rw [← Bool.not_eq_true, regionHas_iff]

@[simp] theorem regionHas_empty (b a : Nat) : regionHas ⟨b, 0⟩ a = false := by
  rw [regionHas_false_iff]; simp only; omega

/-- Clipping a region inside the address space changes nothing. -/
theorem clipRegion_eq (r : Region) (h : r.base + r.size ≤ 2 ^ 32) : (clipRegion r).size = r.size := by
  simp only [clipRegion]; omega

/-! ### One byte -/

@[simp] theorem Memory.read_nil (a : Nat) : Memory.read [] a = 0 := rfl

theorem Memory.read_cons (c : Host.Cell) (m : Memory) (a : Nat) :
    Memory.read (c :: m) a = if c.1 = a then c.2 else Memory.read m a := rfl

theorem Memory.read_erase (m : Memory) (a b : Nat) :
    (m.erase a).read b = if b = a then 0 else m.read b := by
  induction m with
  | nil => simp [Memory.erase]
  | cons c m ih =>
    by_cases hc : c.1 = a
    · have : Memory.erase (c :: m) a = Memory.erase m a := by simp [Memory.erase, hc]
      rw [this, ih, Memory.read_cons]
      split_ifs <;> simp_all
    · have : Memory.erase (c :: m) a = c :: Memory.erase m a := by simp [Memory.erase, hc]
      rw [this, Memory.read_cons, ih, Memory.read_cons]
      split_ifs <;> simp_all

theorem Memory.mem_erase (m : Memory) (a : Nat) (c : Host.Cell) : c ∈ m.erase a ↔ c ∈ m ∧ c.1 ≠ a := by
  simp [Memory.erase]

theorem Memory.read_insert (m : Memory) (a b : Nat) (v : Byte) (h : ∀ c ∈ m, c.1 ≠ a) :
    (m.insert a v).read b = if b = a then v else m.read b := by
  induction m with
  | nil => simp [Memory.insert, Memory.read_cons, eq_comm]
  | cons c m ih =>
    have hm := ih fun d hd => h d (List.mem_cons_of_mem _ hd)
    have hc := h c (List.mem_cons_self)
    simp only [Memory.insert]
    by_cases h1 : a < c.1
    · rw [if_pos h1, Memory.read_cons]
      simp only [eq_comm]
    · rw [if_neg h1, Memory.read_cons, hm, Memory.read_cons]
      by_cases h2 : c.1 = b
      · rw [if_pos h2, if_pos h2, if_neg (by omega)]
      · rw [if_neg h2, if_neg h2]

/-- A read after a write to the same byte gives the value written; every other byte reads as before. -/
theorem Memory.read_write (m : Memory) (a b : Nat) (v : Byte) :
    (m.write a v).read b = if b = a then v else m.read b := by
  unfold Memory.write
  split_ifs with hv hb hb
  · rw [Memory.read_erase, if_pos hb, hv]; rfl
  · rw [Memory.read_erase, if_neg hb]
  · rw [Memory.read_insert _ _ _ _ (fun c hc => ((Memory.mem_erase m a c).1 hc).2), if_pos hb]
  · rw [Memory.read_insert _ _ _ _ (fun c hc => ((Memory.mem_erase m a c).1 hc).2), if_neg hb,
      Memory.read_erase, if_neg hb]

@[simp] theorem Memory.read_write_self (m : Memory) (a : Nat) (v : Byte) : (m.write a v).read a = v := by
  rw [Memory.read_write, if_pos rfl]

theorem Memory.read_write_ne (m : Memory) {a b : Nat} (v : Byte) (h : b ≠ a) :
    (m.write a v).read b = m.read b := by
  rw [Memory.read_write, if_neg h]

/-! ### The canonical form -/

theorem Memory.wf_nil : Memory.wf [] := by simp [Memory.wf]

theorem Memory.wf_erase {m : Memory} (h : m.wf) (a : Nat) : (m.erase a).wf :=
  ⟨h.1.filter _, fun c hc => h.2 c ((Memory.mem_erase m a c).1 hc).1⟩

theorem Memory.mem_insert {m : Memory} {a : Nat} {v : Byte} {c : Host.Cell} :
    c ∈ m.insert a v ↔ c = (a, v) ∨ c ∈ m := by
  induction m with
  | nil => simp [Memory.insert]
  | cons d m ih =>
    simp only [Memory.insert]
    split_ifs <;> simp_all
    tauto

theorem Memory.sorted_insert {m : Memory} (h : m.Pairwise (fun c d => c.1 < d.1)) {a : Nat} (v : Byte)
    (ha : ∀ c ∈ m, c.1 ≠ a) : (m.insert a v).Pairwise (fun c d => c.1 < d.1) := by
  induction m with
  | nil => simp [Memory.insert]
  | cons d m ih =>
    have hd := List.pairwise_cons.1 h
    simp only [Memory.insert]
    split_ifs with h1
    · refine List.pairwise_cons.2 ⟨fun c hc => ?_, h⟩
      rcases List.mem_cons.1 hc with rfl | hc
      · exact h1
      · exact lt_trans h1 (hd.1 c hc)
    · refine List.pairwise_cons.2 ⟨fun c hc => ?_, ih hd.2 fun c hc => ha c (List.mem_cons_of_mem _ hc)⟩
      rcases Memory.mem_insert.1 hc with rfl | hc
      · have := ha d List.mem_cons_self
        simp only; omega
      · exact hd.1 c hc

/-- A write keeps the canonical form. -/
theorem Memory.wf_write {m : Memory} (h : m.wf) {a : Nat} (ha : a < 2 ^ 32) (v : Byte) : (m.write a v).wf := by
  unfold Memory.write
  split_ifs with hv
  · exact Memory.wf_erase h a
  · refine ⟨Memory.sorted_insert (Memory.wf_erase h a).1 v fun c hc => ((Memory.mem_erase m a c).1 hc).2, ?_⟩
    intro c hc
    rcases Memory.mem_insert.1 hc with rfl | hc
    · exact ⟨ha, hv⟩
    · exact (Memory.wf_erase h a).2 c hc

/-! ### Several bytes -/

theorem Memory.read_writeList (bs : List Byte) : ∀ (m : Memory) (a b : Nat),
    (m.writeList a bs).read b = if a ≤ b ∧ b < a + bs.length then bs.getD (b - a) 0 else m.read b := by
  induction bs with
  | nil => intro m a b; simp [Memory.writeList]
  | cons v bs ih =>
    intro m a b
    rw [Memory.writeList, ih, Memory.read_write]
    by_cases hb : b = a
    · subst hb; simp
    · by_cases h : a ≤ b ∧ b < a + (v :: bs).length
      · have h' : a + 1 ≤ b ∧ b < a + 1 + bs.length := by simp at h; omega
        obtain ⟨k, rfl⟩ : ∃ k, b = a + 1 + k := ⟨b - (a + 1), by omega⟩
        rw [if_pos h, if_pos h', show a + 1 + k - (a + 1) = k by omega, show a + 1 + k - a = k + 1 by omega]
        rfl
      · have h' : ¬(a + 1 ≤ b ∧ b < a + 1 + bs.length) := by simp at h; omega
        rw [if_neg h, if_neg h', if_neg hb]

theorem Memory.wf_writeList (bs : List Byte) : ∀ {m : Memory}, m.wf → ∀ {a : Nat}, a + bs.length ≤ 2 ^ 32 →
    (m.writeList a bs).wf := by
  induction bs with
  | nil => intro m h a _; exact h
  | cons v bs ih =>
    intro m h a ha
    simp only [List.length_cons] at ha
    exact ih (Memory.wf_write h (by omega) v) (by omega)

@[simp] theorem Memory.length_readList (m : Memory) (n : Nat) : ∀ a, (m.readList a n).length = n := by
  induction n with
  | zero => intro a; rfl
  | succ n ih => intro a; simp [Memory.readList, ih]

theorem Memory.getD_readList (m : Memory) (n : Nat) : ∀ (a i : Nat),
    (m.readList a n).getD i 0 = if i < n then m.read (a + i) else 0 := by
  induction n with
  | zero => intro a i; simp [Memory.readList]
  | succ n ih =>
    intro a i
    cases i with
    | zero => simp [Memory.readList]
    | succ i =>
      simp only [Memory.readList, List.getD_cons_succ, ih, Nat.add_lt_add_iff_right]
      rw [show a + 1 + i = a + (i + 1) by omega]

theorem Memory.read_scramble (m : Memory) (base k b : Nat) : ∀ n, ¬(base ≤ b ∧ b < base + n) →
    (Memory.scramble m base k n).read b = m.read b := by
  intro n
  induction n with
  | zero => intro _; rfl
  | succ n ih =>
    intro h
    rw [Memory.scramble, Memory.read_write_ne _ _ (by omega), ih (by omega)]

/-- A byte of a region that has become unspecified is the free byte of its place. -/
theorem Memory.read_scramble_mem (m : Memory) (base k i : Nat) : ∀ n, i < n →
    (Memory.scramble m base k n).read (base + i) = Config.freeByte (k + i) := by
  intro n
  induction n with
  | zero => intro h; omega
  | succ n ih =>
    intro h
    rw [Memory.scramble]
    by_cases hi : i = n
    · subst hi; simp
    · rw [Memory.read_write_ne _ _ (by omega), ih (by omega)]

theorem Memory.wf_scramble {m : Memory} (h : m.wf) (base k : Nat) : ∀ n, base + n ≤ 2 ^ 32 ∨ n = 0 →
    (Memory.scramble m base k n).wf := by
  intro n
  induction n with
  | zero => intro _; exact h
  | succ n ih => intro hn; exact Memory.wf_write (ih (by omega)) (by omega) _

/-- The canonical form is kept where a region becomes unspecified. -/
theorem State.wf_loseBytes {s : State} (h : s.mem.wf) (r : Region) : (s.loseBytes r).mem.wf := by
  simp only [State.loseBytes_mem]
  exact Memory.wf_scramble h _ _ _ (by simp only [clipRegion]; omega)

theorem State.loseBytes_sameOutside (s : State) (r : Region) : sameOutside r s.mem (s.loseBytes r).mem := by
  intro a ha
  rw [regionHas_false_iff] at ha
  rw [State.loseBytes_mem]
  exact Memory.read_scramble _ _ _ _ _ (by simp only [clipRegion]; omega)

/-- Equal reads make equal canonical memories. -/
theorem Memory.eq_of_read_eq : ∀ {m m' : Memory}, m.wf → m'.wf → (∀ a, m.read a = m'.read a) → m = m' := by
  have above : ∀ {m : Memory} {c : Host.Cell}, Memory.wf (c :: m) → ∀ a, a ≤ c.1 → Memory.read m a = 0 := by
    intro m c h a ha
    have hlt := (List.pairwise_cons.1 h.1).1
    clear h
    induction m with
    | nil => rfl
    | cons d m ih =>
      have := hlt d List.mem_cons_self
      rw [Memory.read_cons, if_neg (by omega)]
      exact ih fun x hx => hlt x (List.mem_cons_of_mem _ hx)
  have tail : ∀ {m : Memory} {c : Host.Cell}, Memory.wf (c :: m) → Memory.wf m := fun h =>
    ⟨(List.pairwise_cons.1 h.1).2, fun c hc => h.2 c (List.mem_cons_of_mem _ hc)⟩
  intro m
  induction m with
  | nil =>
    intro m' _ h' hr
    cases m' with
    | nil => rfl
    | cons c m' =>
      have := hr c.1
      rw [Memory.read_cons, if_pos rfl] at this
      exact absurd this.symm (h'.2 c List.mem_cons_self).2
  | cons c m ih =>
    intro m' h h' hr
    cases m' with
    | nil =>
      have := hr c.1
      rw [Memory.read_cons, if_pos rfl] at this
      exact absurd this (h.2 c List.mem_cons_self).2
    | cons d m' =>
      have key : c.1 = d.1 := by
        rcases lt_trichotomy c.1 d.1 with hlt | heq | hgt
        · have := hr c.1
          rw [Memory.read_cons, if_pos rfl, Memory.read_cons, if_neg (by omega),
            above h' c.1 (by omega)] at this
          exact absurd this (h.2 c List.mem_cons_self).2
        · exact heq
        · have := hr d.1
          rw [Memory.read_cons, if_neg (by omega), above h d.1 (by omega), Memory.read_cons,
            if_pos rfl] at this
          exact absurd this.symm (h'.2 d List.mem_cons_self).2
      have hv : c.2 = d.2 := by
        have := hr c.1
        rwa [Memory.read_cons, if_pos rfl, Memory.read_cons, if_pos key.symm] at this
      have hrest : m = m' := by
        refine ih (tail h) (tail h') fun a => ?_
        by_cases ha : c.1 = a
        · rw [above h a (by omega), above h' a (by omega)]
        · have := hr a
          rwa [Memory.read_cons, if_neg ha, Memory.read_cons, if_neg (by omega)] at this
      rw [Prod.ext key hv, hrest]

/-! ### MEM_OK -/

/-- Some list holds every bit vector of a width. -/
theorem exists_list_all (n : Nat) : ∃ l : List (BitVec n), ∀ a, a ∈ l :=
  ⟨(List.range (2 ^ n)).map (BitVec.ofNat n), fun a =>
    List.mem_map.2 ⟨a.toNat, List.mem_range.2 a.isLt, by simp⟩⟩

/-- Every predicate on (address, kind) is the MEM_OK of some map: holding it as plain data shuts none out (00_scope
R7). -/
theorem memOk_represents (base : BitVec 23) (keyMax : Word) (f : Word → AccessKind → Bool) :
    ∃ p : Platform, p.baseIndex = base ∧ p.keyMaxBytes = keyMax ∧ ∀ a k, memOk p a.toNat k = f a k := by
  have find : ∀ (l : List Word) (a : Word), a ∈ l →
      (l.map fun b => (⟨⟨b.toNat, 1⟩, f b .read, f b .write⟩ : MapEntry)).find?
        (fun e => regionHas e.region a.toNat) = some ⟨⟨a.toNat, 1⟩, f a .read, f a .write⟩ := by
    intro l a
    induction l with
    | nil => simp
    | cons b l ih =>
      intro ha
      by_cases hb : b = a
      · subst hb; simp [regionHas]
      · have hn : regionHas ⟨b.toNat, 1⟩ a.toNat = false := by
          rw [regionHas_false_iff]
          have : b.toNat ≠ a.toNat := fun h => hb (BitVec.eq_of_toNat_eq h)
          simp only; omega
        rw [List.map_cons, List.find?_cons_of_neg (by simp [hn])]
        exact ih ((List.mem_cons.1 ha).resolve_left (Ne.symm hb))
  obtain ⟨l, hl⟩ := exists_list_all 32
  refine ⟨⟨base, keyMax, l.map fun b => ⟨⟨b.toNat, 1⟩, f b .read, f b .write⟩⟩, rfl, rfl, fun a k => ?_⟩
  rw [memOk]
  simp only
  rw [find l a (hl a)]
  cases k <;> rfl

end Sys2Proof.Machine
end

