-- ==== Sys2Proof/Laws/Access.lean ====
section
/-! SUPPORT. What the engine's byte loops do: buffers read, bytes stored, blocks transformed (20_memory R57 to R61). -/

namespace Sys2Proof.Machine

/-- What a byte load answers. -/
theorem loadByte_eq (p : Platform) (m : Memory) (a : Nat) :
    loadByte p m a = if memOk p a .read then .ok (m.read a) else .error .busError := rfl

/-- What index `k` of a buffer holds: the byte, or 0 from the buffer's end on (40_codec R100). -/
def bufferByte (m : Memory) (base len k : Nat) : Byte := if k < len then m.read (base + k) else 0

/-- A buffer read whose accesses complete answers the buffer's bytes. -/
theorem fetchBytes_ok (p : Platform) (m : Memory) (base len : Nat) : ∀ (n k : Nat),
    (∀ i, k ≤ i → i < k + n → i < len → memOk p (base + i) .read = true) →
    fetchBytes p m base len k n = .ok ((List.range' k n).map (bufferByte m base len)) := by
  intro n
  induction n with
  | zero => intro k _; rfl
  | succ n ih =>
    intro k h
    have hb : fetchByte p m base len k = .ok (bufferByte m base len k) := by
      unfold fetchByte bufferByte
      split_ifs with hk
      · rw [loadByte_eq, if_pos (h k (by omega) (by omega) hk)]
      · rfl
    rw [fetchBytes, hb, ih (k + 1) fun i h1 h2 => h i (by omega) (by omega)]
    rfl

/-- A buffer read one of whose accesses does not complete answers BUS_ERROR. -/
theorem fetchBytes_error (p : Platform) (m : Memory) (base len : Nat) : ∀ (n k : Nat),
    (∃ i, k ≤ i ∧ i < k + n ∧ i < len ∧ memOk p (base + i) .read = false) →
    fetchBytes p m base len k n = .error .busError := by
  intro n
  induction n with
  | zero => rintro k ⟨i, h1, h2, _⟩; omega
  | succ n ih =>
    rintro k ⟨i, h1, h2, h3, h4⟩
    rw [fetchBytes]
    by_cases hik : i = k
    · subst hik
      simp [fetchByte, h3, loadByte_eq, h4]
    · have hrec := ih (k + 1) ⟨i, by omega, by omega, h3, h4⟩
      rw [hrec]
      unfold fetchByte
      rw [loadByte_eq]
      split_ifs <;> rfl

/-- A buffer read answers the buffer's bytes or BUS_ERROR. -/
theorem fetchBytes_cases (p : Platform) (m : Memory) (base len k n : Nat) :
    fetchBytes p m base len k n = .ok ((List.range' k n).map (bufferByte m base len)) ∨
      fetchBytes p m base len k n = .error .busError := by
  by_cases h : ∃ i, k ≤ i ∧ i < k + n ∧ i < len ∧ memOk p (base + i) .read = false
  · exact .inr (fetchBytes_error p m base len n k h)
  · refine .inl (fetchBytes_ok p m base len n k fun i h1 h2 h3 => ?_)
    by_contra hf
    exact h ⟨i, h1, h2, h3, by simpa using hf⟩

/-- Stores that complete write the bytes. -/
theorem storeBytes_ok (p : Platform) (bs : List Byte) : ∀ (m : Memory) (a : Nat),
    (∀ i, a ≤ i → i < a + bs.length → memOk p i .write = true) →
    storeBytes p m a bs = .ok (m.writeList a bs) := by
  induction bs with
  | nil => intro m a _; rfl
  | cons b bs ih =>
    intro m a h
    simp only [List.length_cons] at h
    simp only [storeBytes, storeByte, h a (by omega) (by omega), if_true]
    exact ih _ _ fun i h1 h2 => h i (by omega) (by omega)

/-- Stores one of which does not complete answer BUS_ERROR. -/
theorem storeBytes_error (p : Platform) (bs : List Byte) : ∀ (m : Memory) (a : Nat),
    (∃ i, a ≤ i ∧ i < a + bs.length ∧ memOk p i .write = false) → storeBytes p m a bs = .error .busError := by
  induction bs with
  | nil => rintro m a ⟨i, h1, h2, _⟩; simp at h2; omega
  | cons b bs ih =>
    rintro m a ⟨i, h1, h2, h3⟩
    simp only [List.length_cons] at h2
    by_cases hi : i = a
    · subst hi; simp [storeBytes, storeByte, h3]
    · have hrec := ih (m.write a b) (a + 1) ⟨i, by omega, by omega, h3⟩
      simp only [storeBytes, storeByte]
      split_ifs
      · exact hrec
      · rfl

/-- Stores write the bytes or answer BUS_ERROR. -/
theorem storeBytes_cases (p : Platform) (m : Memory) (a : Nat) (bs : List Byte) :
    storeBytes p m a bs = .ok (m.writeList a bs) ∨ storeBytes p m a bs = .error .busError := by
  by_cases h : ∃ i, a ≤ i ∧ i < a + bs.length ∧ memOk p i .write = false
  · exact .inr (storeBytes_error p bs m a h)
  · refine .inl (storeBytes_ok p bs m a fun i h1 h2 => ?_)
    by_contra hf
    exact h ⟨i, h1, h2, by simpa using hf⟩

@[simp] theorem length_wordToBytes (w : Word) : (wordToBytes w).length = 4 := rfl

@[simp] theorem length_wordsToBlock (x : Block) : (wordsToBlock x).length = 16 := rfl

/-! ### Blocks -/

/-- The 16 bytes of block `k` of a buffer, zeros from its end on. -/
def bufferBlock (m : Memory) (base len k : Nat) : List Byte := (List.range' (16 * k) 16).map (bufferByte m base len)

/-- What block `k` of a message command does when its accesses complete. -/
def blockWritten (f : Block → Block) (src len dst k : Nat) (m : Memory) : Memory :=
  m.writeList (dst + 16 * k) (wordsToBlock (f (blockToWords (bufferBlock m src len k) 0)))

/-- What blocks 0 .. n-1 do. -/
def blocksWritten (f : Block → Block) (src len dst : Nat) : Nat → Memory → Memory
  | 0, m => m
  | n + 1, m => blockWritten f src len dst n (blocksWritten f src len dst n m)

theorem transformBlock_ok (f : Block → Block) (p : Platform) (src len dst k : Nat) (m : Memory)
    (hr : ∀ i, 16 * k ≤ i → i < 16 * k + 16 → i < len → memOk p (src + i) .read = true)
    (hw : ∀ i, dst + 16 * k ≤ i → i < dst + 16 * k + 16 → memOk p i .write = true) :
    transformBlock f p src len dst k m = .ok (blockWritten f src len dst k m) := by
  rw [transformBlock, fetchBytes_ok p m src len 16 (16 * k) hr]
  exact storeBytes_ok p _ m _ (by simpa using hw)

theorem transformBlock_cases (f : Block → Block) (p : Platform) (src len dst k : Nat) (m : Memory) :
    transformBlock f p src len dst k m = .ok (blockWritten f src len dst k m) ∨
      transformBlock f p src len dst k m = .error .busError := by
  rw [transformBlock]
  rcases fetchBytes_cases p m src len (16 * k) 16 with h | h
  · rw [h]; exact storeBytes_cases p m _ _
  · rw [h]; exact .inr rfl

/-- The blocks are transformed when every access completes. -/
theorem transformBlocks_ok (f : Block → Block) (p : Platform) (src len dst : Nat) (m : Memory) : ∀ n,
    (∀ i, i < 16 * n → i < len → memOk p (src + i) .read = true) →
    (∀ i, dst ≤ i → i < dst + 16 * n → memOk p i .write = true) →
    transformBlocks f p src len dst n m = .ok (blocksWritten f src len dst n m) := by
  intro n
  induction n with
  | zero => intro _ _; rfl
  | succ n ih =>
    intro hr hw
    rw [transformBlocks, ih (fun i h1 h2 => hr i (by omega) h2) (fun i h1 h2 => hw i h1 (by omega))]
    exact transformBlock_ok f p src len dst n _ (fun i h1 h2 h3 => hr i (by omega) h3)
      (fun i h1 h2 => hw i (by omega) (by omega))

/-- A message command transforms its blocks or meets a BUS_ERROR. -/
theorem transformBlocks_cases (f : Block → Block) (p : Platform) (src len dst : Nat) (m : Memory) (n : Nat) :
    transformBlocks f p src len dst n m = .ok (blocksWritten f src len dst n m) ∨
      transformBlocks f p src len dst n m = .error .busError := by
  induction n with
  | zero => exact .inl rfl
  | succ n ih =>
    rw [transformBlocks]
    rcases ih with h | h
    · rw [h]; exact transformBlock_cases f p src len dst n _
    · rw [h]; exact .inr rfl

/-- One access that does not complete makes the whole message command meet a BUS_ERROR. -/
theorem transformBlocks_error (f : Block → Block) (p : Platform) (src len dst : Nat) (m : Memory) : ∀ n,
    ((∃ i, i < 16 * n ∧ i < len ∧ memOk p (src + i) .read = false) ∨
      ∃ i, dst ≤ i ∧ i < dst + 16 * n ∧ memOk p i .write = false) →
    transformBlocks f p src len dst n m = .error .busError := by
  intro n
  induction n with
  | zero => rintro (⟨i, h, _⟩ | ⟨i, h1, h2, _⟩) <;> omega
  | succ n ih =>
    intro h
    rw [transformBlocks]
    by_cases hp : (∃ i, i < 16 * n ∧ i < len ∧ memOk p (src + i) .read = false) ∨
        ∃ i, dst ≤ i ∧ i < dst + 16 * n ∧ memOk p i .write = false
    · rw [ih hp]
    · rcases transformBlocks_cases f p src len dst m n with h' | h'
      · rw [h']
        show transformBlock f p src len dst n _ = _
        rw [transformBlock]
        rcases h with ⟨i, h1, h2, h3⟩ | ⟨i, h1, h2, h3⟩
        · have : ¬i < 16 * n := fun hi => hp (.inl ⟨i, hi, h2, h3⟩)
          rw [fetchBytes_error p _ src len 16 (16 * n) ⟨i, by omega, by omega, h2, h3⟩]
        · have : ¬i < dst + 16 * n := fun hi => hp (.inr ⟨i, h1, hi, h3⟩)
          rcases fetchBytes_cases p (blocksWritten f src len dst n m) src len (16 * n) 16 with h'' | h''
          · rw [h'']
            exact storeBytes_error p _ _ _ ⟨i, by omega, by simp; omega, h3⟩
          · rw [h'']
      · rw [h']

/-- The blocks written lie in the destination. -/
theorem blocksWritten_outside (f : Block → Block) (src len dst : Nat) (m : Memory) (a : Nat) : ∀ n,
    ¬(dst ≤ a ∧ a < dst + 16 * n) → (blocksWritten f src len dst n m).read a = m.read a := by
  intro n
  induction n with
  | zero => intro _; rfl
  | succ n ih =>
    intro h
    rw [blocksWritten, blockWritten, Memory.read_writeList, length_wordsToBlock, if_neg (by omega), ih (by omega)]

/-- Where no block reads a byte an earlier one wrote, block `k` of the destination is the function of block `k` of the
source. -/
theorem blocksWritten_block (f : Block → Block) {src len dst : Nat} (m : Memory) (h : readsBeforeWrites src len dst) :
    ∀ n k, k < n → (blocksWritten f src len dst n m).readList (dst + 16 * k) 16 =
      wordsToBlock (f (blockToWords (bufferBlock m src len k) 0)) := by
  have same : ∀ n k, n ≤ k → bufferBlock (blocksWritten f src len dst n m) src len k = bufferBlock m src len k := by
    intro n k hk
    refine List.map_congr_left fun i hi => ?_
    have := List.mem_range'_1.1 hi
    unfold bufferByte
    split_ifs with hl
    · refine blocksWritten_outside f src len dst m _ n ?_
      rcases h with h | h <;> omega
    · rfl
  intro n
  induction n with
  | zero => intro k hk; omega
  | succ n ih =>
    intro k hk
    by_cases hkn : k = n
    · subst hkn
      refine List.ext_getElem (by simp) fun i h1 h2 => ?_
      rw [← List.getD_eq_getElem _ 0 h1, ← List.getD_eq_getElem _ 0 h2, Memory.getD_readList,
        blocksWritten, blockWritten, same k k le_rfl]
      simp only [Memory.length_readList] at h1
      rw [if_pos h1, Memory.read_writeList, length_wordsToBlock, if_pos (by omega),
        show dst + 16 * k + i - (dst + 16 * k) = i by omega]
    · rw [← ih k (by omega)]
      refine List.ext_getElem (by simp) fun i h1 h2 => ?_
      rw [← List.getD_eq_getElem _ 0 h1, ← List.getD_eq_getElem _ 0 h2, Memory.getD_readList, Memory.getD_readList,
        blocksWritten, blockWritten]
      simp only [Memory.length_readList] at h1
      rw [if_pos h1, if_pos h1, Memory.read_writeList, length_wordsToBlock, if_neg (by omega)]

theorem wf_blocksWritten (f : Block → Block) (src len dst : Nat) {m : Memory} (hm : m.wf) : ∀ n,
    dst + 16 * n ≤ 2 ^ 32 → (blocksWritten f src len dst n m).wf := by
  intro n
  induction n with
  | zero => intro _; exact hm
  | succ n ih =>
    intro h
    exact Memory.wf_writeList _ (ih (by omega)) (by simp; omega)

end Sys2Proof.Machine
end

