-- ==== Sys2Proof/Laws/Exec.lean ====
section
/-! SUPPORT. What each command can do, said once: the endings of every meaning, in terms of `State.ended`. -/

namespace Sys2Proof.Machine

theorem State.finish_eq_ended (s : State) (e : ErrCode) : s.finish e = s.ended e := rfl

theorem succeed_eq (s : State) : succeed s = .next (s.ended .none) := rfl

theorem raise_eq (e : ErrCode) (s : State) : raise e s = .next (s.ended e) := rfl

theorem raiseBusError_eq (r : Region) (s : State) : raiseBusError r s = .next ((s.loseBytes r).ended .busError) := rfl

/-- B2W ends with its check's error, or with BUS_ERROR, or with WORD written (40_codec R103). -/
theorem execB2w_cases (s : State) :
    (∃ e, b2wCheck s = some e ∧ execB2w s = .next (s.ended e)) ∨
    (b2wCheck s = none ∧ execB2w s = .next (s.ended .busError)) ∨
    (b2wCheck s = none ∧ ∃ v, execB2w s = .next ((s.setWord v).ended .none)) := by
  unfold execB2w
  cases h : b2wCheck s with
  | some e => exact .inl ⟨e, rfl, rfl⟩
  | none =>
    rcases fetchBytes_cases s.platform s.mem s.srcAddr.toNat s.len.toNat s.offset.toNat 4 with h' | h'
    · exact .inr (.inr ⟨rfl, _, by rw [h']; rfl⟩)
    · exact .inr (.inl ⟨rfl, by rw [h']; rfl⟩)

/-- W2B ends with its check's error, or with BUS_ERROR and its region unspecified, or with its bytes written
(40_codec R104). -/
theorem execW2b_cases (s : State) :
    (∃ e, w2bCheck s = some e ∧ execW2b s = .next (s.ended e)) ∨
    (w2bCheck s = none ∧ execW2b s = .next ((s.loseBytes (writtenRegion .w2b s)).ended .busError)) ∨
    (w2bCheck s = none ∧ execW2b s =
      .next ((s.setMem (s.mem.writeList (s.dstAddr.toNat + s.offset.toNat) (wordToBytes s.word))).ended .none)) := by
  unfold execW2b
  cases h : w2bCheck s with
  | some e => exact .inl ⟨e, rfl, rfl⟩
  | none =>
    rcases storeBytes_cases s.platform s.mem (s.dstAddr.toNat + s.offset.toNat) (wordToBytes s.word) with h' | h'
    · exact .inr (.inr ⟨rfl, by rw [h']; rfl⟩)
    · exact .inr (.inl ⟨rfl, by rw [h']; rfl⟩)

/-- KSCHED ends with an error, KEY_VALID 0 and S unspecified, or with S the schedule of the key bytes and KEY_VALID 1
(41_key_schedule R125). -/
theorem execKsched_cases (s : State) :
    (∃ e, e ≠ .none ∧ execKsched s = .next (((s.setKeyValid false).loseSubkeys).ended e)) ∨
    (kschedCheck s = none ∧ ∃ K, fetchBytes s.platform s.mem s.keyAddr.toNat s.keyLen.toNat 0 s.keyLen.toNat = .ok K ∧
      execKsched s = .next (((s.setSubkeys (keySchedule K)).setKeyValid true).ended .none)) := by
  have hc : kschedCheck (s.setKeyValid false) = kschedCheck s := rfl
  unfold execKsched kschedBody
  rw [hc]
  cases h : kschedCheck s with
  | some e =>
    refine .inl ⟨e, ?_, rfl⟩
    rintro rfl
    unfold kschedCheck at h
    split_ifs at h <;> simp at h
  | none =>
    simp only [State.setKeyValid_platform, State.setKeyValid_mem, State.setKeyValid_keyAddr, State.setKeyValid_keyLen]
    rcases fetchBytes_cases s.platform s.mem s.keyAddr.toNat s.keyLen.toNat 0 s.keyLen.toNat with h' | h'
    · exact .inr ⟨trivial, _, h', by rw [h']; rfl⟩
    · exact .inl ⟨.busError, by simp, by rw [h']; rfl⟩

/-- ENCB ends with NO_KEY, or with the block encrypted (42_block_cipher R146). -/
theorem execEncb_cases (s : State) :
    (s.status.keyValid = false ∧ execEncb s = .next (s.ended .noKey)) ∨
    (s.status.keyValid = true ∧ execEncb s = .next ((s.setBlk (encWords s.subkeys s.blk)).ended .none)) := by
  unfold execEncb encbCheck
  cases h : s.status.keyValid
  · exact .inl ⟨rfl, by simp [raise_eq]⟩
  · exact .inr ⟨rfl, by simp [succeed_eq]⟩

/-- DECB ends with NO_KEY, or with the block decrypted (42_block_cipher R147). -/
theorem execDecb_cases (s : State) :
    (s.status.keyValid = false ∧ execDecb s = .next (s.ended .noKey)) ∨
    (s.status.keyValid = true ∧ execDecb s = .next ((s.setBlk (decWords s.subkeys s.blk)).ended .none)) := by
  unfold execDecb decbCheck
  cases h : s.status.keyValid
  · exact .inl ⟨rfl, by simp [raise_eq]⟩
  · exact .inr ⟨rfl, by simp [succeed_eq]⟩

/-- ENCM ends with its check's error, or with BUS_ERROR and its region unspecified, or with its blocks written
(42_block_cipher R148). -/
theorem execEncm_cases (s : State) :
    (∃ e, encmCheck s = some e ∧ execEncm s = .next (s.ended e)) ∨
    (encmCheck s = none ∧ execEncm s = .next ((s.loseBytes (writtenRegion .encm s)).ended .busError)) ∨
    (encmCheck s = none ∧ execEncm s =
      .next (((s.setMem (blocksWritten (encWords s.subkeys) s.srcAddr.toNat s.len.toNat s.dstAddr.toNat
        (blockCount s.len.toNat) s.mem)).setOutLen (BitVec.ofNat 32 (16 * blockCount s.len.toNat))).ended .none)) := by
  unfold execEncm
  cases h : encmCheck s with
  | some e => exact .inl ⟨e, rfl, rfl⟩
  | none =>
    rcases transformBlocks_cases (encWords s.subkeys) s.platform s.srcAddr.toNat s.len.toNat s.dstAddr.toNat s.mem
      (blockCount s.len.toNat) with h' | h'
    · exact .inr (.inr ⟨rfl, by rw [h']; rfl⟩)
    · exact .inr (.inl ⟨rfl, by rw [h']; rfl⟩)

/-- DECM ends with its check's error, or with BUS_ERROR and its region unspecified, or with its blocks written
(42_block_cipher R149). -/
theorem execDecm_cases (s : State) :
    (∃ e, decmCheck s = some e ∧ execDecm s = .next (s.ended e)) ∨
    (decmCheck s = none ∧ execDecm s = .next ((s.loseBytes (writtenRegion .decm s)).ended .busError)) ∨
    (decmCheck s = none ∧ execDecm s =
      .next (((s.setMem (blocksWritten (decWords s.subkeys) s.srcAddr.toNat s.len.toNat s.dstAddr.toNat
        (s.len.toNat / 16) s.mem)).setOutLen s.len).ended .none)) := by
  unfold execDecm
  cases h : decmCheck s with
  | some e => exact .inl ⟨e, rfl, rfl⟩
  | none =>
    rcases transformBlocks_cases (decWords s.subkeys) s.platform s.srcAddr.toNat s.len.toNat s.dstAddr.toNat s.mem
      (s.len.toNat / 16) with h' | h'
    · exact .inr (.inr ⟨rfl, by rw [h']; rfl⟩)
    · exact .inr (.inl ⟨rfl, by rw [h']; rfl⟩)

/-! ### The checks as propositions -/

theorem passesEnd_iff (base size : Nat) : passesEnd base size = true ↔ 2 ^ 32 < base + size := by simp [passesEnd]

theorem b2wCheck_none_iff (s : State) : b2wCheck s = none ↔ s.srcAddr.toNat + s.len.toNat ≤ 2 ^ 32 := by
  unfold b2wCheck; split_ifs with h <;> rw [passesEnd_iff] at h <;> simp <;> omega

theorem w2bCheck_none_iff (s : State) :
    w2bCheck s = none ↔ s.offset.toNat + 4 ≤ s.len.toNat ∧ s.dstAddr.toNat + s.len.toNat ≤ 2 ^ 32 := by
  unfold w2bCheck; split_ifs with h1 h2 <;> try rw [passesEnd_iff] at h2
  all_goals simp; try omega

theorem kschedCheck_none_iff (s : State) :
    kschedCheck s = none ↔ s.keyLen.toNat ≤ s.platform.keyMaxBytes.toNat ∧ s.keyAddr.toNat + s.keyLen.toNat ≤ 2 ^ 32 := by
  unfold kschedCheck; split_ifs with h1 h2 <;> try rw [passesEnd_iff] at h2
  all_goals simp; try omega

theorem encmCheck_none_iff (s : State) :
    encmCheck s = none ↔ s.status.keyValid = true ∧ s.len.toNat ≤ 0xFFFFFFF0 ∧
      s.srcAddr.toNat + s.len.toNat ≤ 2 ^ 32 ∧ s.dstAddr.toNat + 16 * blockCount s.len.toNat ≤ 2 ^ 32 := by
  unfold encmCheck; split_ifs with h1 h2 h3 h4 <;> try rw [passesEnd_iff] at h3
  all_goals try rw [passesEnd_iff] at h4
  all_goals simp_all

theorem decmCheck_none_iff (s : State) :
    decmCheck s = none ↔ s.status.keyValid = true ∧ s.len.toNat % 16 = 0 ∧
      s.srcAddr.toNat + s.len.toNat ≤ 2 ^ 32 ∧ s.dstAddr.toNat + s.len.toNat ≤ 2 ^ 32 := by
  unfold decmCheck; split_ifs with h1 h2 h3 h4 <;> try rw [passesEnd_iff] at h3
  all_goals try rw [passesEnd_iff] at h4
  all_goals simp_all

/-- A check never answers "no error" as an error. -/
theorem commandCheck_ne_none (i : Instr) (s : State) : commandCheck i s ≠ some .none := by
  cases i <;> simp only [commandCheck]
  · unfold b2wCheck; split_ifs <;> simp
  · unfold w2bCheck; split_ifs <;> simp
  · unfold kschedCheck; split_ifs <;> simp
  · unfold encbCheck; split_ifs <;> simp
  · unfold decbCheck; split_ifs <;> simp
  · unfold encmCheck; split_ifs <;> simp
  · unfold decmCheck; split_ifs <;> simp

end Sys2Proof.Machine
end

