-- ==== Sys2Proof/Laws/Turns.lean ====
section
/-! SUPPORT. What a turn can do: the engine's, a host's, reset's, and a race taking effect. -/

namespace Sys2Proof.Machine

/-- What a race may change: data memory, WORD, the block, OUT_LEN, S, the footprints and the free values drawn
(20_memory R64). -/
structure OnlyOutputs (s t : State) : Prop where
  platform : t.platform = s.platform
  status : t.status = s.status
  keyAddr : t.keyAddr = s.keyAddr
  keyLen : t.keyLen = s.keyLen
  srcAddr : t.srcAddr = s.srcAddr
  dstAddr : t.dstAddr = s.dstAddr
  len : t.len = s.len
  offset : t.offset = s.offset
  pending : t.pending = s.pending
  agenda : t.agenda = s.agenda
  readData : t.readData = s.readData
  wf : s.mem.wf → t.mem.wf

theorem OnlyOutputs.refl (s : State) : OnlyOutputs s s :=
  ⟨rfl, rfl, rfl, rfl, rfl, rfl, rfl, rfl, rfl, rfl, rfl, id⟩

theorem OnlyOutputs.trans {s t u : State} (h : OnlyOutputs s t) (h' : OnlyOutputs t u) : OnlyOutputs s u :=
  ⟨h'.1.trans h.1, h'.2.trans h.2, h'.3.trans h.3, h'.4.trans h.4, h'.5.trans h.5, h'.6.trans h.6, h'.7.trans h.7,
    h'.8.trans h.8, h'.9.trans h.9, h'.10.trans h.10, h'.11.trans h.11, fun w => h'.12 (h.12 w)⟩

theorem onlyOutputs_loseBytes (r : Region) (s : State) : OnlyOutputs s (s.loseBytes r) :=
  ⟨rfl, rfl, rfl, rfl, rfl, rfl, rfl, rfl, rfl, rfl, rfl, fun h => State.wf_loseBytes h r⟩

theorem onlyOutputs_loseResults (c : Option Instr) (s : State) :
    OnlyOutputs s (loseResults c s) ∧ (loseResults c s).mem = s.mem ∧ (loseResults c s).outLen = s.outLen := by
  rcases c with _ | c
  · exact ⟨OnlyOutputs.refl s, rfl, rfl⟩
  · cases c <;> exact ⟨⟨rfl, rfl, rfl, rfl, rfl, rfl, rfl, rfl, rfl, rfl, rfl, id⟩, rfl, rfl⟩

theorem onlyOutputs_loseLength (c : Option Instr) (s : State) :
    OnlyOutputs s (loseLength c s) ∧ (loseLength c s).mem = s.mem := by
  rcases c with _ | c
  · exact ⟨OnlyOutputs.refl s, rfl⟩
  · cases c <;> exact ⟨⟨rfl, rfl, rfl, rfl, rfl, rfl, rfl, rfl, rfl, rfl, rfl, id⟩, rfl⟩

theorem settleOlder_effect (f : Footprint) (s : State) :
    OnlyOutputs s (settleOlder f s) ∧ (settleOlder f s).outLen = s.outLen ∧
      sameOutside f.writes s.mem (settleOlder f s).mem := by
  unfold settleOlder
  split_ifs
  · have h := onlyOutputs_loseResults f.command (s.loseBytes f.writes)
    refine ⟨(onlyOutputs_loseBytes _ _).trans h.1, h.2.2, ?_⟩
    rw [h.2.1]
    exact State.loseBytes_sameOutside s f.writes
  · exact ⟨OnlyOutputs.refl s, rfl, fun _ _ => rfl⟩

theorem settleLast_effect (f : Footprint) (s : State) :
    OnlyOutputs s (settleLast f s) ∧ (s.status.err ≠ .none → (settleLast f s).outLen = s.outLen) ∧
      sameOutside f.writes s.mem (settleLast f s).mem := by
  unfold settleLast
  split_ifs with h1 h2
  · have h := onlyOutputs_loseResults f.command (s.loseBytes f.writes)
    have h' := onlyOutputs_loseLength f.command (loseResults f.command (s.loseBytes f.writes))
    refine ⟨((onlyOutputs_loseBytes _ _).trans h.1).trans h'.1, fun hn => absurd h2 hn, ?_⟩
    rw [h'.2, h.2.1]
    exact State.loseBytes_sameOutside s f.writes
  · exact ⟨onlyOutputs_loseBytes _ _, fun _ => rfl, State.loseBytes_sameOutside s f.writes⟩
  · exact ⟨OnlyOutputs.refl s, fun _ => rfl, fun _ _ => rfl⟩

theorem settleOlders_effect (fs : List Footprint) : ∀ (s : State),
    OnlyOutputs s (fs.foldl (fun t g => settleOlder g t) s) ∧
      (fs.foldl (fun t g => settleOlder g t) s).outLen = s.outLen ∧
      ∀ a, (∀ f ∈ fs, regionHas f.writes a = false) →
        (fs.foldl (fun t g => settleOlder g t) s).mem.read a = s.mem.read a := by
  induction fs with
  | nil => intro s; exact ⟨OnlyOutputs.refl s, rfl, fun _ _ => rfl⟩
  | cons f fs ih =>
    intro s
    have h := settleOlder_effect f s
    have h' := ih (settleOlder f s)
    refine ⟨h.1.trans h'.1, h'.2.1.trans h.2.1, fun a ha => ?_⟩
    rw [List.foldl_cons, h'.2.2 a fun g hg => ha g (List.mem_cons_of_mem _ hg)]
    exact h.2.2 a (ha f List.mem_cons_self)

/-- What a race taking effect can do: outputs only; OUT_LEN stays while a command runs and beside an error code; bytes
outside every noted written region stay (20_memory R64). -/
theorem settle_effect (s : State) :
    OnlyOutputs s (settle s) ∧
      (s.status.busy = true ∨ s.status.err ≠ .none → (settle s).outLen = s.outLen) ∧
      ∀ a, (∀ f ∈ s.unsynced, regionHas f.writes a = false) → (settle s).mem.read a = s.mem.read a := by
  unfold settle
  split
  · exact ⟨OnlyOutputs.refl s, fun _ => rfl, fun _ _ => rfl⟩
  · rename_i f older hu
    have h := settleOlders_effect older s
    have h2 := settleLast_effect f (older.foldl (fun t g => settleOlder g t) s)
    rw [hu]
    simp only
    split_ifs with hb
    · refine ⟨⟨h.1.1, h.1.2, h.1.3, h.1.4, h.1.5, h.1.6, h.1.7, h.1.8, h.1.9, h.1.10, h.1.11, h.1.12⟩,
        fun _ => h.2.1, fun a ha => h.2.2 a fun g hg => ha g (List.mem_cons_of_mem _ hg)⟩
    · have h3 := h.1.trans h2.1
      refine ⟨⟨h3.1, h3.2, h3.3, h3.4, h3.5, h3.6, h3.7, h3.8, h3.9, h3.10, h3.11, h3.12⟩, fun ho => ?_,
        fun a ha => ?_⟩
      · have he : s.status.err ≠ .none := ho.resolve_left hb
        exact (h2.2.1 (by rw [h.1.status]; exact he)).trans h.2.1
      · exact (h2.2.2 a (ha f List.mem_cons_self)).trans
          (h.2.2 a fun g hg => ha g (List.mem_cons_of_mem _ hg))

/-- Where no race waits, nothing takes effect. -/
theorem settle_eq_self (s : State) (h : s.noRace) : settle s = s := by
  have calm : ∀ fs : List Footprint, (∀ f ∈ fs, f.raced = false) →
      (fs.map fun g => ({ g with raced := false } : Footprint)) = fs ∧
        ∀ t, fs.foldl (fun t g => settleOlder g t) t = t := by
    intro fs
    induction fs with
    | nil => intro _; exact ⟨rfl, fun _ => rfl⟩
    | cons f fs ih =>
      intro hf
      have hf0 := hf f List.mem_cons_self
      obtain ⟨h1, h2⟩ := ih fun g hg => hf g (List.mem_cons_of_mem _ hg)
      refine ⟨?_, fun t => ?_⟩
      · rw [List.map_cons, h1]; cases f; simp_all
      · rw [List.foldl_cons, settleOlder, if_neg (by simp [hf0])]; exact h2 t
  unfold settle
  split
  · rfl
  · rename_i f older hu
    have hf0 := h f (by rw [hu]; exact List.mem_cons_self)
    obtain ⟨h1, h2⟩ := calm older fun g hg => h g (by rw [hu]; exact List.mem_cons_of_mem _ hg)
    have hf : ({ f with raced := false } : Footprint) = f := by cases f; simp_all
    simp only [h1, h2, hf, settleLast, hf0, ← hu]
    split_ifs <;> first | rfl | contradiction

/-! ### Footprints -/

/-- An illegal word touches no byte. -/
theorem footprintOf_illegal {v : Word} {e : Illegal} (h : decode v = .error e) (s : State) :
    footprintOf v s = ⟨none, ⟨0, 0⟩, ⟨0, 0⟩, false⟩ := by simp only [footprintOf, h]

/-- A command touches its regions where its register-only checks pass, and no byte otherwise. -/
theorem footprintOf_command {v : Word} {i : Instr} (h : decode v = .ok i) (s : State) :
    footprintOf v s = if commandCheck i s = none then ⟨some i, readRegion i s, writtenRegion i s, false⟩
      else ⟨some i, ⟨0, 0⟩, ⟨0, 0⟩, false⟩ := by
  simp only [footprintOf, h]
  cases commandCheck i s <;> simp

/-! ### Steps -/

theorem step_eq_nil {s : State} (h : s.agenda = []) : step s = engineTurn s := by
  simp only [step, machineStep, h]

theorem step_eq_cons {s : State} {t : Turn} {rest : List Turn} (h : s.agenda = t :: rest) :
    step s = takeTurn t { s with agenda := rest } := by
  simp only [step, machineStep, h]

/-- The engine's turn in one equation. -/
theorem step_eq_engine {s : State} (h : s.engineNext) : step s = engineTurn { s with agenda := s.agenda.tail } := by
  rcases h with h | h
  · rw [step_eq_nil h, h]
    congr 1
    cases s; simp_all
  · obtain ⟨rest, hr⟩ : ∃ rest, s.agenda = .engine :: rest := by
      cases ha : s.agenda with
      | nil => rw [ha] at h; simp at h
      | cons t rest => rw [ha] at h; simp at h; exact ⟨rest, by rw [h]⟩
    rw [step_eq_cons hr, hr]
    rfl

end Sys2Proof.Machine
end

