-- ==== Sys2Proof/Laws/Cipher.lean ====
section
/-! SUPPORT. Small laws of the codec, the key packing, the mixing loop, the block functions and the data turns. -/

namespace Sys2Proof.Machine

/-! ### Buffers and blocks -/

/-- Lists of one length that agree at every index are equal. -/
theorem bytes_ext {l l' : List Byte} (hl : l.length = l'.length) (h : ∀ i < l.length, l.getD i 0 = l'.getD i 0) :
    l = l' := by
  refine List.ext_getElem hl fun i h1 h2 => ?_
  have := h i h1
  rwa [List.getD_eq_getElem _ _ h1, List.getD_eq_getElem _ _ h2] at this

/-- A whole buffer, byte by byte, is what `readList` reads. -/
theorem bufferBytes_all (m : Memory) (base n : Nat) : (List.range' 0 n).map (bufferByte m base n) = m.readList base n := by
  refine List.ext_getElem (by simp) fun i h1 h2 => ?_
  have := Memory.getD_readList m n base i
  rw [List.getD_eq_getElem _ _ h2] at this
  rw [this]
  simp [bufferByte]

/-- The word at an offset of a buffer is the word of the four bytes fetched there (40_codec R100). -/
theorem bytesToWord_fetched (m : Memory) (base len off : Nat) :
    bytesToWord ((List.range' off 4).map (bufferByte m base len)) 0 = bytesToWord (m.readList base len) off := by
  simp only [bytesToWord, byteAt, Memory.getD_readList, bufferByte, List.range', List.map]
  simp

theorem getD_bufferBlock (m : Memory) (b n k : Nat) {i : Nat} (hi : i < 16) :
    (bufferBlock m b n k).getD i 0 = bufferByte m b n (16 * k + i) := by
  rw [List.getD_eq_getElem _ _ (by simpa [bufferBlock] using hi)]
  simp [bufferBlock]

/-- A block that lies inside its buffer is 16 bytes of memory. -/
theorem bufferBlock_inside (m : Memory) (b n k : Nat) (h : 16 * k + 16 ≤ n) :
    bufferBlock m b n k = m.readList (b + 16 * k) 16 := by
  refine bytes_ext (by simp [bufferBlock]) fun i hi => ?_
  have hi : i < 16 := by simpa [bufferBlock] using hi
  rw [getD_bufferBlock m b n k hi, Memory.getD_readList, if_pos hi, bufferByte, if_pos (by omega), Nat.add_assoc]

/-- Padding adds zeros, so no index reads differently (42_block_cipher R145). -/
theorem getD_pad (p : List Byte) (i : Nat) : (pad p).getD i 0 = p.getD i 0 := by
  unfold pad
  by_cases h : i < p.length
  · rw [List.getD_append _ _ _ _ h]
  · rw [List.getD_append_right _ _ _ _ (by omega), List.getD_eq_default p 0 (by omega)]
    simp [List.getD_eq_getElem?_getD, List.getElem?_replicate]
    split_ifs <;> rfl

/-- The four words of a block depend on its 16 bytes alone. -/
theorem blockToWords_congr {l l' : List Byte} {a b : Nat} (h : ∀ i < 16, l.getD (a + i) 0 = l'.getD (b + i) 0) :
    blockToWords l a = blockToWords l' b := by
  have h0 : l.getD a 0 = l'.getD b 0 := h 0 (by omega)
  simp only [blockToWords, bytesToWord, byteAt, Nat.add_assoc, Nat.reduceAdd]
  rw [h0, h 1 (by omega), h 2 (by omega), h 3 (by omega), h 4 (by omega), h 5 (by omega), h 6 (by omega),
    h 7 (by omega), h 8 (by omega), h 9 (by omega), h 10 (by omega), h 11 (by omega), h 12 (by omega),
    h 13 (by omega), h 14 (by omega), h 15 (by omega)]

/-- Block `k` as the engine reads it is block `k` of the message (42_block_cipher R149). -/
theorem blockToWords_message (m : Memory) (b n k : Nat) :
    blockToWords (bufferBlock m b n k) 0 = blockToWords (messageAt m b n) (16 * k) := by
  refine blockToWords_congr fun i hi => ?_
  rw [Nat.zero_add, getD_bufferBlock _ _ _ _ hi, messageAt, Memory.getD_readList]; rfl

/-- Block `k` as the engine reads it is block `k` of the padded message (42_block_cipher R148). -/
theorem blockToWords_padded (m : Memory) (b n k : Nat) :
    blockToWords (bufferBlock m b n k) 0 = blockToWords (pad (messageAt m b n)) (16 * k) := by
  refine blockToWords_congr fun i hi => ?_
  rw [Nat.zero_add, getD_bufferBlock _ _ _ _ hi, getD_pad, messageAt, Memory.getD_readList]; rfl

/-! ### Key schedule -/

theorem initialSubkeys_get (i : Nat) (h : i < 44) : initialSubkeys[i] = initialWord i := by simp [initialSubkeys]

theorem packFrom_append (K : List Byte) (b : Byte) : ∀ i L,
    packFrom i (K ++ [b]) L = packByte (i + K.length) b (packFrom i K L) := by
  induction K with
  | nil => intro i L; rfl
  | cons a K ih => intro i L; simp only [List.cons_append, packFrom, ih, List.length_cons]; congr 1; omega

@[simp] theorem length_packFrom (K : List Byte) : ∀ i L, (packFrom i K L).length = L.length := by
  induction K with
  | nil => intro i L; rfl
  | cons a K ih => intro i L; rw [packFrom, ih]; simp [packByte]

theorem mixLoop_succ (n : Nat) : ∀ m, mixLoop (n + 1) m = mixStep (mixLoop n m) := by
  induction n with
  | zero => intro m; rfl
  | succ n ih => intro m; rw [mixLoop, ih]; rfl

/-- Keys of the same key words have the same schedule (41_key_schedule R125). -/
theorem keySchedule_congr {K K' : List Byte} (h : keyWords K = keyWords K') : keySchedule K = keySchedule K' := by
  simp only [keySchedule, h]

/-! ### Block functions -/

theorem getD_subkeys (S : Subkeys) (i : Nat) : S.toList.getD i 0 = subkeyAt S i := by
  unfold subkeyAt
  split_ifs with h <;> simp [List.getD_eq_getElem?_getD, h]

theorem decStart_encEnd (S : Subkeys) (x : Block) : decStart S (encEnd S x) = x := by cases x; simp [decStart, encEnd]

theorem encEnd_decStart (S : Subkeys) (x : Block) : encEnd S (decStart S x) = x := by cases x; simp [decStart, encEnd]

theorem decEnd_encStart (S : Subkeys) (x : Block) : decEnd S (encStart S x) = x := by cases x; simp [decEnd, encStart]

theorem encStart_decEnd (S : Subkeys) (x : Block) : encStart S (decEnd S x) = x := by cases x; simp [decEnd, encStart]

/-! ### Data turns -/

/-- An access that R64 does not forbid leaves no mark. -/
theorem State.touch_permitted {s : State} {a : Nat} {k : AccessKind} (h : racesAt s a k = false) : s.touch a k = s := by
  have : s.unsynced.map (markRaced a k) = s.unsynced := by
    unfold racesAt at h
    rw [List.any_eq_false] at h
    conv_rhs => rw [← List.map_id s.unsynced]
    refine List.map_congr_left fun f hf => ?_
    have := h f hf
    simp only [markRaced, id]
    cases f; simp_all
  unfold State.touch
  rw [this]

end Sys2Proof.Machine
end

