-- ==== Sys2Proof/Laws/PerInstr.lean ====
section
/-! SUPPORT. Statements made of every command, constructor by constructor. -/

namespace Sys2Proof.Laws.CommandWord

/-- The command's word is well formed: RSV is 0 and OPC is assigned (30_encoding R81, R83). -/
def Statement (i : Instr) : Prop := i.wellFormed = true ∧ wordWellFormed (encode i) = true

theorem b2w : Statement .b2w := by constructor <;> decide
theorem w2b : Statement .w2b := by constructor <;> decide
theorem ksched : Statement .ksched := by constructor <;> decide
theorem encb : Statement .encb := by constructor <;> decide
theorem decb : Statement .decb := by constructor <;> decide
theorem encm : Statement .encm := by constructor <;> decide
theorem decm : Statement .decm := by constructor <;> decide

end Sys2Proof.Laws.CommandWord
end

