-- ==== Sys2Proof/Tests/Slice0.lean ====
section
/-! SUPPORT. Tests of single definitions and single steps, and one witness for each statement that has hypotheses. The
expected values are the spec's (95_test_vectors; the rule or vector is named), never the model's own answers. -/

namespace Sys2Proof.Tests

open Sys2Proof Sys2Proof.Machine

/-! ### Well-formedness (30_encoding R81 to R83): one ill-formed word for each check -/

theorem test_wf_accepts : wordWellFormed 0x00000001#32 = true ∧ wordWellFormed 0x00000007#32 = true := by decide
theorem test_wf_rsv_low_bit : wordWellFormed 0x00000101#32 = false := by decide
theorem test_wf_rsv_top_bit : wordWellFormed 0x80000001#32 = false := by decide
theorem test_wf_opc_zero : wordWellFormed 0x00000000#32 = false := by decide
theorem test_wf_opc_eight : wordWellFormed 0x00000008#32 = false := by decide

/-! ### Decoding (R83, R84): each command's byte lanes, written out from the opcode map -/

theorem test_decode_b2w : decodeBytes [0x01, 0x00, 0x00, 0x00] = .ok (.b2w, []) := by decide
theorem test_decode_w2b : decodeBytes [0x02, 0x00, 0x00, 0x00] = .ok (.w2b, []) := by decide
theorem test_decode_ksched : decodeBytes [0x03, 0x00, 0x00, 0x00] = .ok (.ksched, []) := by decide
theorem test_decode_encb : decodeBytes [0x04, 0x00, 0x00, 0x00] = .ok (.encb, []) := by decide
theorem test_decode_decb : decodeBytes [0x05, 0x00, 0x00, 0x00] = .ok (.decb, []) := by decide
theorem test_decode_encm : decodeBytes [0x06, 0x00, 0x00, 0x00] = .ok (.encm, []) := by decide
theorem test_decode_decm : decodeBytes [0x07, 0x00, 0x00, 0x00] = .ok (.decm, []) := by decide
theorem test_decode_rsv : decode 0x00010001#32 = .error .reservedBits := by decide
theorem test_decode_opc : decode 0x000000FF#32 = .error (.opcode 0xFF) := by decide
theorem test_table_word : decodeTableWord 32 7 = some .decm ∧ decodeTableWord 8 3 = some .ksched ∧
    decodeTableWord 32 8 = none := by decide

/-! ### Platforms and states of the tests -/

/-- BASE = 0xA00, no key limit, every access completes. -/
def openPlatform : Platform := ⟨5, 0xFFFFFFFF, [⟨⟨0, 2 ^ 32⟩, true, true⟩]⟩

/-- BASE = 0, KEY_MAX_BYTES = 16, no access completes. -/
def mutePlatform : Platform := ⟨0, 16, []⟩

/-- After reset, with key "ABC" (41 42 43) scheduled. -/
def keyedState (p : Platform) : State :=
  { State.resetOn p with status := ⟨false, false, true, .none⟩, subkeys := keySchedule [0x41, 0x42, 0x43] }

/-- A command with word `v` in progress, no turn left. -/
def busyState (v : Word) : State := { State.resetOn openPlatform with status := ⟨true, false, false, .none⟩, pending := v }

/-- The state with one turn to come. -/
def withTurn (t : Turn) (s : State) : State := { s with agenda := [t] }

/-- The state of a next outcome. -/
def resultState (r : Result) (s : State) : State :=
  match r with
  | .next t => t
  | .fault _ => s
  | .refused _ => s

/-- The state with `len` bytes at `src` as source and `dst` as destination. -/
def withBuffers (src len dst : Word) (s : State) : State := { s with srcAddr := src, len := len, dstAddr := dst }

theorem open_answers {b n : Nat} (k : AccessKind) (h : b + n ≤ 2 ^ 32) : answers openPlatform ⟨b, n⟩ k := by
  intro a h1 h2
  simp only at h1 h2
  have : regionHas ⟨0, 2 ^ 32⟩ a = true := (regionHas_iff _ _).2 ⟨by simp, by simp only; omega⟩
  unfold memOk openPlatform
  rw [List.find?_cons, this]
  cases k <;> rfl

theorem mute_denies (b n : Nat) (k : AccessKind) : denies mutePlatform ⟨b, n + 1⟩ k :=
  ⟨b, by simp, by simp, rfl⟩

/-! ### Codec (95_test_vectors §2) -/

theorem test_bytesToWord : bytesToWord [0x78, 0x56, 0x34, 0x12] 0 = 0x12345678 ∧
    bytesToWord [0x41, 0x42, 0x43] 1 = 0x00004342 ∧ bytesToWord [] 0 = 0 := by decide  -- V2.1, V2.3, V2.6
theorem test_wordToBytes : wordToBytes 0x12345678 = [0x78, 0x56, 0x34, 0x12] := by decide  -- V2.9

/-- V2.12: mem 0x1000: 41 42 43, LEN 3, OFFSET 0. -/
theorem test_b2w : (resultState (exec .b2w { withBuffers 0x1000 3 0 (keyedState openPlatform) with
    mem := [(0x1000, 0x41), (0x1001, 0x42), (0x1002, 0x43)] }) State.reset).word = 0x00434241 := by decide

/-- V2.17: the region ends exactly at 2^32. -/
theorem test_b2w_last_byte : (resultState (exec .b2w { withBuffers 0xFFFFFFFF 1 0 (keyedState openPlatform) with
    mem := [(0xFFFFFFFF, 0x99)] }) State.reset).word = 0x99 := by decide

/-- V2.19: WORD = 0x1234_5678, DST_ADDR 0x2000, LEN 8, OFFSET 4. -/
theorem test_w2b : (resultState (exec .w2b { withBuffers 0 8 0x2000 (keyedState openPlatform) with
    word := 0x12345678, offset := 4 }) State.reset).mem =
      [(0x2004, 0x78), (0x2005, 0x56), (0x2006, 0x34), (0x2007, 0x12)] := by decide

/-- V2.23: OFFSET + 4 does not wrap. -/
theorem test_w2b_offset_range : (resultState (exec .w2b { withBuffers 0 0xFFFFFFFF 0 (keyedState openPlatform) with
    offset := 0xFFFFFFFD }) State.reset).status = ⟨false, true, true, .offsetRange⟩ := by decide

/-! ### Key schedule (95_test_vectors §3) -/

theorem test_keyWords : keyWords [0x41, 0x42, 0x43, 0x44, 0x45] = [0x41424344, 0x45] ∧
    keyWords [0, 0x41, 0x42, 0x43] = [0x00414243] ∧ keyWords [] = [0] := by decide  -- V3.4a, V3.4b, V3.1

/-- V3.8, V3.6: mem 0x1000: 41 42 43; S[0], S[43] and STATUS = 0x06. -/
theorem test_ksched :
    (fun t : State => (t.subkeys[0], t.subkeys[43], statusWord t.status)) (resultState (exec .ksched
      { State.resetOn openPlatform with keyAddr := 0x1000, keyLen := 3,
                                        mem := [(0x1000, 0x41), (0x1001, 0x42), (0x1002, 0x43)] }) State.reset) =
      (0x46E9F5EE, 0xDE705F84, 0x00000006) := by decide +kernel

/-- V3.10: KEY_LEN 17, KEY_MAX_BYTES 16. -/
theorem test_ksched_too_long : statusWord (resultState (exec .ksched
    { State.resetOn mutePlatform with keyLen := 17 }) State.reset).status = 0x00000302 := by decide

/-! ### Block cipher (95_test_vectors §4, §5) -/

theorem test_quad : quad 0 = 0 ∧ quad 1 = 0x60 ∧ quad 0xFFFFFFFF = 0x20 ∧ quad 0x80000000 = 0x10 := by decide  -- R140

/-- V4.14: the all-zero block under the key of 16 zero bytes. -/
theorem test_encb : (resultState (exec .encb { keyedState openPlatform with
    subkeys := keySchedule (List.replicate 16 0) }) State.reset).blk =
      ⟨0x36A5C38F, 0x78F7B156, 0x4EDF29C1, 0x1EA44898⟩ := by decide +kernel

/-- R147, worked example: key "ABC". -/
theorem test_decb : (resultState (exec .decb { keyedState openPlatform with
    blk := ⟨0x49903F3E, 0x98361FA3, 0xB24A15C7, 0xDB2D0315⟩ }) State.reset).blk = ⟨0x00686E41, 0, 0, 0⟩ := by
  decide +kernel

/-- V5.3: ENCM of 41 6e 68. -/
theorem test_encm : (fun t : State => (t.mem.readList 0x3000 16, t.outLen)) (resultState (exec .encm
    { withBuffers 0x2000 3 0x3000 (keyedState openPlatform) with
      mem := [(0x2000, 0x41), (0x2001, 0x6E), (0x2002, 0x68)] }) State.reset) =
      ([0x3E, 0x3F, 0x90, 0x49, 0xA3, 0x1F, 0x36, 0x98, 0xC7, 0x15, 0x4A, 0xB2, 0x15, 0x03, 0x2D, 0xDB], 16) := by
  decide +kernel

/-- V5.11: LEN = 0xFFFF_FFF1. -/
theorem test_encm_too_long : statusWord (resultState (exec .encm
    (withBuffers 0 0xFFFFFFF1 0 (keyedState openPlatform))) State.reset).status = 0x00000406 := by decide

/-- V5.8, in place (20_memory R59): the recovered zeros are kept. -/
theorem test_decm : (resultState (exec .decm { withBuffers 0x3000 16 0x3000 (keyedState openPlatform) with
    mem := Memory.writeList [] 0x3000 [0x3E, 0x3F, 0x90, 0x49, 0xA3, 0x1F, 0x36, 0x98, 0xC7, 0x15, 0x4A, 0xB2, 0x15,
      0x03, 0x2D, 0xDB] }) State.reset).mem = [(0x3000, 0x41), (0x3001, 0x6E), (0x3002, 0x68)] := by decide +kernel

/-- V5.10: LEN = 17. -/
theorem test_decm_length : statusWord (resultState (exec .decm
    (withBuffers 0x2000 17 0x3000 (keyedState openPlatform))) State.reset).status = 0x00000406 := by decide

/-! ### The step -/

/-- A command word placed at reset is the next thing that runs: ENCB ends with NO_KEY, STATUS = 0x202 (R183). -/
theorem test_step_encb : statusWord (resultState (step (State.reset.withFetchWord 32 4)) State.reset).status =
    0x00000202 := by decide

/-- An illegal word ends with ILLEGAL_CMD, STATUS = 0x102 (R182). -/
theorem test_step_illegal : statusWord (resultState (step (State.reset.withFetchWord 32 0x101)) State.reset).status =
    0x00000102 := by decide

/-- R36: PARAM reads 0x102C_1420, also while BUSY = 1 (R45). -/
theorem test_read_param : (resultState (step (withTurn (rdTurn openPlatform .param) (busyState 1))) State.reset).readData =
    0x102C1420 := by decide

/-- R22: a halfword write of CMD starts nothing. -/
theorem test_halfword_write : (resultState (step (withTurn (.host (.regWrite 0xA00 .half 1))
    (State.resetOn openPlatform))) State.reset).status.busy = false := by decide

/-! ### Witnesses: states and operands that meet the hypotheses of each statement together -/

theorem witness_DecodeEncodeAgree : Instr.encm.wellFormed = true ∧ decode 0x00000006#32 = .ok .encm := by decide

theorem witness_StepRunsDecodedCommand : ∃ (s : State) (i : Instr) (t : State), s.status.busy = true ∧ s.engineNext ∧
    decode s.pending = .ok i ∧ exec i { s with agenda := s.agenda.tail } = .next t ∧ t.noRace :=
  ⟨busyState 4, .encb, _, rfl, .inl rfl, by decide, rfl, by simp [State.noRace, State.finish, busyState, State.resetOn]⟩

theorem witness_IllegalCommandChangesOnlyStatus : ∃ (s : State) (e : Illegal), s.status.busy = true ∧ s.engineNext ∧
    s.noRace ∧ decode s.pending = .error e :=
  ⟨busyState 8, .opcode 8, rfl, .inl rfl, by simp [State.noRace, busyState, State.resetOn], by decide⟩

theorem witness_CommandStartWrites : ∀ v : Word, ∃ (s : State) (rest : List Turn), s.status.busy = false ∧
    s.agenda = .host (.regWrite (regAddr s.platform .cmd) .word v) :: rest :=
  fun v => ⟨withTurn (wrTurn openPlatform .cmd v) (keyedState openPlatform), [], rfl, rfl⟩

/-- The clauses of CommandStartWrites about the note: a word for each, and for each check a state on either side of it. -/
theorem witness_CommandStartWrites_clauses : decode 0x00000108#32 = .error .reservedBits ∧
    (∀ i, decode (encode i) = .ok i) ∧
    (∃ s : State, s.srcAddr.toNat + s.len.toNat = 2 ^ 32) ∧ (∃ s : State, s.srcAddr.toNat + s.len.toNat = 2 ^ 32 + 1) ∧
    (∃ s : State, s.offset.toNat + 4 = s.len.toNat ∧ s.dstAddr.toNat + s.len.toNat = 2 ^ 32) ∧
    (∃ s : State, s.offset.toNat + 4 = s.len.toNat + 1) ∧
    (∃ s : State, s.keyLen.toNat = s.platform.keyMaxBytes.toNat ∧ s.keyAddr.toNat + s.keyLen.toNat = 2 ^ 32) ∧
    (∃ s : State, s.keyLen.toNat = s.platform.keyMaxBytes.toNat + 1) ∧
    (∃ s : State, s.status.keyValid = true ∧ s.len.toNat = 0xFFFFFFF0 ∧ s.srcAddr.toNat + s.len.toNat ≤ 2 ^ 32 ∧
      s.dstAddr.toNat + 16 * ((s.len.toNat + 15) / 16) = 2 ^ 32 ∧ s.len.toNat % 16 = 0 ∧
      s.dstAddr.toNat + s.len.toNat ≤ 2 ^ 32) ∧
    ∃ s : State, s.status.keyValid = false :=
  ⟨by decide, fun i => by cases i <;> decide, ⟨withBuffers 0xFFFFFFFF 1 0 (keyedState openPlatform), by decide⟩,
    ⟨withBuffers 0xFFFFFFFF 2 0 (keyedState openPlatform), by decide⟩,
    ⟨withBuffers 0 4 0xFFFFFFFC (keyedState openPlatform), by decide, by decide⟩,
    ⟨withBuffers 0 3 0 (keyedState openPlatform), by decide⟩,
    ⟨{ keyedState mutePlatform with keyAddr := 0xFFFFFFF0, keyLen := 16 }, by decide, by decide⟩,
    ⟨{ keyedState mutePlatform with keyLen := 17 }, by decide⟩,
    ⟨withBuffers 0 0xFFFFFFF0 0x10 (keyedState openPlatform), rfl, by decide, by decide, by decide, by decide,
      by decide⟩,
    ⟨State.resetOn openPlatform, rfl⟩⟩

theorem witness_CommandWriteSets : ∀ i, ∃ t, exec i (keyedState mutePlatform) = .next t := fun i => by
  cases i <;> exact ⟨_, rfl⟩

theorem witness_NoKeyEndsKeyedCommands : ∀ i : Instr, (i = .encb ∨ i = .decb ∨ i = .encm ∨ i = .decm) →
    (State.resetOn openPlatform).status.keyValid = false := fun _ _ => rfl

theorem witness_IdleEngineChangesNothing : ∃ s : State, s.status.busy = false ∧ s.engineNext ∧ s.agenda ≠ [] :=
  ⟨withTurn .engine (keyedState openPlatform), rfl, .inr rfl, by decide⟩

theorem witness_StartedCommandEnds : ∃ s : State, s.status.busy = true ∧ s.agenda ≠ [] :=
  ⟨withTurn (rdTurn openPlatform .status) (busyState 1), rfl, by decide⟩

theorem witness_WaitSeesCompletion : ∃ (n : Nat) (s : State) (rest : List Turn), s.status.busy = true ∧
    s.agenda = expandLine s.platform (.wait n) ++ rest :=
  ⟨2, { busyState 1 with agenda := expandLine openPlatform (.wait 2) ++ [.reset] }, [.reset], rfl, rfl⟩

theorem witness_MnemonicLineStartsCommand : ∃ (i : Instr) (p : Platform) (s : State) (rest : List Turn), s.platform = p ∧
    s.status.busy = false ∧ s.agenda = expandLine p (.command i) ++ rest :=
  ⟨.decm, openPlatform, { keyedState openPlatform with agenda := expandLine openPlatform (.command .decm) }, [], rfl, rfl,
    rfl⟩

theorem witness_ResetTurnValues : (∃ (s : State) (rest : List Turn), s.agenda = .reset :: rest ∧ s.status.busy = false) ∧
    (∃ (s : State) (rest : List Turn), s.agenda = .reset :: rest ∧ s.status.busy = true ∧
      decode s.pending = .ok .encm) ∧
    ∃ (s : State) (rest : List Turn) (e : Illegal), s.agenda = .reset :: rest ∧ s.status.busy = true ∧
      decode s.pending = .error e :=
  ⟨⟨withTurn .reset (keyedState openPlatform), [], rfl, rfl⟩, ⟨withTurn .reset (busyState 6), [], rfl, rfl, by decide⟩,
    ⟨withTurn .reset (busyState 0), [], .opcode 0, rfl, rfl, by decide⟩⟩

/-- The hypotheses of StepKeepsInvariant, and of PlatformNeverChanges, with a command in progress. -/
theorem witness_StepKeepsInvariant : ∃ s t : State, s.Inv ∧ s.status.busy = true ∧ step s = .next t :=
  ⟨busyState 4, _, ⟨Memory.wf_nil, by decide⟩, rfl, rfl⟩

theorem witness_IdleLatchIsUnobservable : (keyedState openPlatform).status.busy = false := rfl

theorem witness_SubkeysStayBetweenKscheds : ∃ s t : State, step s = .next t ∧ s.noRace ∧ s.nextPermitted ∧
    s.agenda.head? ≠ some .reset ∧ s.engineNext ∧ s.status.busy = true ∧ s.pending ≠ 0x00000003#32 :=
  ⟨busyState 4, _, rfl, by simp [State.noRace, busyState, State.resetOn],
    by simp [State.nextPermitted, busyState, State.resetOn], by simp [busyState, State.resetOn], .inl rfl, rfl, by decide⟩

theorem witness_KeyValidMeansSchedule : ∃ s t : State, step s = .next t ∧ s.noRace ∧ s.nextPermitted ∧ s.keyed ∧
    s.status.keyValid = true :=
  ⟨keyedState openPlatform, _, rfl, by simp [State.noRace, keyedState, State.resetOn],
    by simp [State.nextPermitted, keyedState, State.resetOn],
    fun _ => ⟨[0x41, 0x42, 0x43], by decide, rfl⟩, rfl⟩

theorem witness_RegisterMapRoundTrip : regAt 0x1AC = some (.subkey 43) ∧ (0x1AC : BitVec 9) = regOffset (.subkey 43) := by
  decide

theorem witness_StatusWordFields : (3 ≤ 3 ∧ 3 ≤ 7 ∨ 12 ≤ 3) ∧ (3 ≤ 7 ∧ 7 ≤ 7 ∨ 12 ≤ 7) ∧ (3 ≤ 12 ∧ 12 ≤ 7 ∨ 12 ≤ 12) := by
  decide

theorem witness_BusyWritesAreDropped : ∃ (s : State) (addr : Word) (size : AccessSize) (v : Word) (rest : List Turn),
    s.status.busy = true ∧ s.agenda = .host (.regWrite addr size v) :: rest :=
  ⟨withTurn (wrTurn openPlatform .cmd 1) (busyState 6), _, .word, 1, [], rfl, rfl⟩

theorem witness_BusyReadsAnswer : ∀ r : RegName, ∃ (s : State) (rest : List Turn), s.status.busy = true ∧
    s.agenda = .host (.regRead (regAddr s.platform r) .word) :: rest :=
  fun r => ⟨withTurn (rdTurn openPlatform r) (busyState 6), [], rfl, rfl⟩

theorem witness_IdleReadsAnswer : ∀ r : RegName, (∃ (s : State) (rest : List Turn), s.status.busy = false ∧
      s.status.keyValid = true ∧ s.agenda = .host (.regRead (regAddr s.platform r) .word) :: rest) ∧
    ∃ (s : State) (rest : List Turn), s.status.busy = false ∧ s.status.keyValid = false ∧
      s.agenda = .host (.regRead (regAddr s.platform r) .word) :: rest :=
  fun r => ⟨⟨withTurn (rdTurn openPlatform r) (keyedState openPlatform), [], rfl, rfl, rfl⟩,
    ⟨withTurn (rdTurn openPlatform r) (State.resetOn openPlatform), [], rfl, rfl, rfl⟩⟩

theorem witness_IdleWritesSetOneRegister : ∀ r : RegName, ∃ (s : State) (v : Word) (rest : List Turn),
    s.status.busy = false ∧ s.agenda = .host (.regWrite (regAddr s.platform r) .word v) :: rest :=
  fun r => ⟨withTurn (wrTurn openPlatform r 9) (keyedState openPlatform), 9, [], rfl, rfl⟩

theorem witness_ReadOnlyAndReservedOffsets :
    (definedOffset openPlatform 0xA28 .word = some 0x028 ∧ regAt 0x028 = none) ∧
    (definedOffset openPlatform 0xBFC .word = some 0x1FC ∧ regAt 0x1FC = none) ∧
    (definedOffset openPlatform 0xBAC .word = some 0x1AC ∧ regAt 0x1AC = some (.subkey 43)) ∧
    (withTurn (.host (.regRead 0xA28 .word)) (keyedState openPlatform)).agenda = [.host (.regRead 0xA28 .word)] := by decide

theorem witness_UndefinedAccessesHaveNoEffect : (AccessSize.half ≠ .word ∨ (0xA00#32).toNat % 4 ≠ 0) ∧
    (AccessSize.word ≠ .word ∨ (0xA03#32).toNat % 4 ≠ 0) ∧
    (withTurn (.host (.regWrite 0xA03 .word 1)) (busyState 1)).agenda = [.host (.regWrite 0xA03 .word 1)] := by decide

theorem witness_RegisterAccessReachesNoSubkey : (∃ (s t : State) (addr v : Word) (size : AccessSize) (rest : List Turn),
      s.agenda = .host (.regWrite addr size v) :: rest ∧ step s = .next t) ∧
    ∃ (s t : State) (addr : Word) (size : AccessSize) (rest : List Turn),
      s.agenda = .host (.regRead addr size) :: rest ∧ step s = .next t :=
  ⟨⟨withTurn (wrTurn openPlatform (.subkey 0) 9) (keyedState openPlatform), _, _, 9, .word, [], rfl, rfl⟩,
    ⟨withTurn (rdTurn openPlatform (.subkey 43)) (keyedState openPlatform), _, _, .word, [], rfl, rfl⟩⟩

theorem witness_PermittedDataAccess : (∃ (s : State) (a : Word) (b : Byte), s.noRace ∧
      racesAt s a.toNat .write = false ∧ s.agenda = [.host (.memWrite a b)]) ∧
    ∃ (s : State) (a : Word), s.noRace ∧ racesAt s a.toNat .read = false ∧ s.agenda = [.host (.memRead a)] :=
  ⟨⟨withTurn (.host (.memWrite 0xFFFFFFFF 7)) (keyedState openPlatform), 0xFFFFFFFF, 7,
      by simp [State.noRace, withTurn, keyedState, State.resetOn], rfl, rfl⟩,
    ⟨withTurn (.host (.memRead 0)) (keyedState mutePlatform), 0,
      by simp [State.noRace, withTurn, keyedState, State.resetOn], rfl, rfl⟩⟩

/-- A host reads a byte that the ENCM in progress writes, and one writes a byte that it reads. -/
theorem witness_RaceReachesOutputsOnly :
    (∃ (s t : State) (a x : Word) (rest : List Turn), s.agenda = .host (.memRead a) :: rest ∧ step s = .next t ∧
      racesAt s a.toNat .read = true ∧ x.toNat ≠ a.toNat ∧ ∀ f ∈ s.unsynced, regionHas f.writes x.toNat = false) ∧
    ∃ (s t : State) (a x : Word) (b : Byte) (rest : List Turn), s.agenda = .host (.memWrite a b) :: rest ∧
      step s = .next t ∧ racesAt s a.toNat .write = true ∧ x.toNat ≠ a.toNat ∧
      ∀ f ∈ s.unsynced, regionHas f.writes x.toNat = false :=
  ⟨⟨{ busyState 6 with unsynced := [⟨some .encm, ⟨0, 3⟩, ⟨0x3000, 16⟩, false⟩], agenda := [.host (.memRead 0x300F)] },
      _, 0x300F, 0x3010, [], rfl, rfl, by decide, by decide, by simp [regionHas]⟩,
    ⟨{ busyState 6 with unsynced := [⟨some .encm, ⟨0, 3⟩, ⟨0x3000, 16⟩, false⟩], agenda := [.host (.memWrite 2 7)] },
      _, 2, 3, 7, [], rfl, rfl, by decide, by decide, by simp [regionHas]⟩⟩

theorem witness_CodecInverseLaws : [0x01#8, 0x02, 0x03, 0x04].length = 4 ∧ [0x41#8, 0x42, 0x43].length < 0 + 4 := by decide

theorem witness_B2wReadsWord : ∃ s : State, s.srcAddr.toNat + s.len.toNat = 2 ^ 32 ∧
    ∀ i < 4, s.offset.toNat + i < s.len.toNat →
      memOk s.platform (s.srcAddr.toNat + (s.offset.toNat + i)) .read = true :=
  ⟨withBuffers 0xFFFFFFFE 2 0 (keyedState openPlatform), by decide, by decide⟩

theorem witness_B2wErrors : (∃ s : State, 2 ^ 32 + 1 = s.srcAddr.toNat + s.len.toNat) ∧
    ∃ s : State, s.srcAddr.toNat + s.len.toNat = 2 ^ 32 ∧ ∃ i < 4, s.offset.toNat + i < s.len.toNat ∧
      memOk s.platform (s.srcAddr.toNat + (s.offset.toNat + i)) .read = false :=
  ⟨⟨withBuffers 0xFFFFFFFF 2 0 (keyedState openPlatform), by decide⟩,
    ⟨withBuffers 0xFFFFFFFF 1 0 (keyedState mutePlatform), by decide, 0, by decide, by decide, by decide⟩⟩

theorem witness_W2bWritesBytes : ∃ s : State, s.offset.toNat + 4 = s.len.toNat ∧ s.dstAddr.toNat + s.len.toNat = 2 ^ 32 ∧
    answers s.platform ⟨s.dstAddr.toNat + s.offset.toNat, 4⟩ .write :=
  ⟨withBuffers 0 4 0xFFFFFFFC (keyedState openPlatform), by decide, by decide, open_answers .write (by decide)⟩

theorem witness_W2bErrors : (∃ s : State, s.len.toNat + 1 = s.offset.toNat + 4) ∧
    (∃ s : State, s.offset.toNat + 4 = s.len.toNat ∧ 2 ^ 32 + 1 = s.dstAddr.toNat + s.len.toNat) ∧
    ∃ s : State, s.offset.toNat + 4 = s.len.toNat ∧ s.dstAddr.toNat + s.len.toNat = 2 ^ 32 ∧
      denies s.platform ⟨s.dstAddr.toNat + s.offset.toNat, 4⟩ .write :=
  ⟨⟨withBuffers 0 3 0 (keyedState openPlatform), by decide⟩,
    ⟨withBuffers 0 4 0xFFFFFFFD (keyedState openPlatform), by decide, by decide⟩,
    ⟨withBuffers 0 4 0xFFFFFFFC (keyedState mutePlatform), by decide, by decide, mute_denies _ 3 .write⟩⟩

theorem witness_InitialTable : 42 + 1 < 44 := by decide

theorem witness_KeyWordsPackBigEndian : 4 * 0 + 4 ≤ [0x41#8, 0x42, 0x43, 0x44].length := by decide

theorem witness_LeadingZeroKeysAgree : keyWords [0, 0x41] = keyWords [0x41] ∧
    ([1, 2, 3, 4] : List Byte).length % 4 = 0 ∧ ([5] : List Byte) ≠ [] ∧ 3 + ([5] : List Byte).length ≤ 4 ∧ 4 ≤ 4 := by
  decide

theorem witness_RotationsInvert : ((31 : Nat) : Int) = -1 % 32 ∧ (31 : Nat) ≠ 0 ∧ ((0 : Nat) : Int) = 32 % 32 ∧
    31 < 32 := by decide

theorem witness_WordAndBlockByteLayout : 3 < 4 ∧ (List.replicate 16 0x41#8).length = 16 := by decide

theorem witness_KschedLoadsSchedule : ∃ s : State, s.keyLen.toNat ≤ s.platform.keyMaxBytes.toNat ∧
    s.keyAddr.toNat + s.keyLen.toNat = 2 ^ 32 ∧ answers s.platform ⟨s.keyAddr.toNat, s.keyLen.toNat⟩ .read :=
  ⟨{ keyedState openPlatform with keyAddr := 0xFFFFFFFF, keyLen := 1 }, by decide, by decide, open_answers .read (by decide)⟩

theorem witness_KschedErrors : (∃ s : State, s.platform.keyMaxBytes.toNat + 1 = s.keyLen.toNat) ∧
    (∃ s : State, s.keyLen.toNat ≤ s.platform.keyMaxBytes.toNat ∧ 2 ^ 32 + 1 = s.keyAddr.toNat + s.keyLen.toNat) ∧
    ∃ s : State, s.keyLen.toNat = s.platform.keyMaxBytes.toNat ∧ s.keyAddr.toNat + s.keyLen.toNat = 2 ^ 32 ∧
      denies s.platform ⟨s.keyAddr.toNat, s.keyLen.toNat⟩ .read :=
  ⟨⟨{ keyedState mutePlatform with keyLen := 17 }, by decide⟩,
    ⟨{ keyedState openPlatform with keyAddr := 0xFFFFFFFF, keyLen := 2 }, by decide, by decide⟩,
    ⟨{ keyedState mutePlatform with keyAddr := 0xFFFFFFF0, keyLen := 16 }, by decide, by decide, mute_denies _ 15 .read⟩⟩

theorem witness_BlockCommandsTransform : (keyedState openPlatform).status.keyValid = true ∧
    ∃ t, exec .encb (keyedState openPlatform) = .next t := ⟨rfl, _, rfl⟩

/-- The hypotheses of EncmEncryptsMessage: 17 bytes in place, the padded region ending at 2^32. -/
theorem witness_EncmEncryptsMessage : ∃ s : State, s.status.keyValid = true ∧ s.len.toNat ≤ 0xFFFFFFF0 ∧
    s.srcAddr.toNat + s.len.toNat ≤ 2 ^ 32 ∧ s.dstAddr.toNat + 16 * ((s.len.toNat + 15) / 16) = 2 ^ 32 ∧
    answers s.platform ⟨s.srcAddr.toNat, s.len.toNat⟩ .read ∧
    answers s.platform ⟨s.dstAddr.toNat, 16 * ((s.len.toNat + 15) / 16)⟩ .write ∧
    readsBeforeWrites s.srcAddr.toNat s.len.toNat s.dstAddr.toNat ∧ 1 < (s.len.toNat + 15) / 16 :=
  ⟨withBuffers 0xFFFFFFE0 17 0xFFFFFFE0 (keyedState openPlatform), rfl, by decide, by decide, by decide,
    open_answers .read (by decide), open_answers .write (by decide), .inl (by decide), by decide⟩

theorem witness_EncmErrors : (∃ s : State, s.status.keyValid = true ∧ 0xFFFFFFF1 = s.len.toNat) ∧
    (∃ s : State, s.status.keyValid = true ∧ s.len.toNat ≤ 0xFFFFFFF0 ∧
      2 ^ 32 + 1 = s.srcAddr.toNat + s.len.toNat) ∧
    (∃ s : State, s.status.keyValid = true ∧ s.len.toNat ≤ 0xFFFFFFF0 ∧ s.srcAddr.toNat + s.len.toNat ≤ 2 ^ 32 ∧
      2 ^ 32 + 1 = s.dstAddr.toNat + 16 * ((s.len.toNat + 15) / 16)) ∧
    ∃ s : State, s.status.keyValid = true ∧ s.len.toNat ≤ 0xFFFFFFF0 ∧ s.srcAddr.toNat + s.len.toNat = 2 ^ 32 ∧
      s.dstAddr.toNat + 16 * ((s.len.toNat + 15) / 16) = 2 ^ 32 ∧
      denies s.platform ⟨s.srcAddr.toNat, s.len.toNat⟩ .read ∧
      denies s.platform ⟨s.dstAddr.toNat, 16 * ((s.len.toNat + 15) / 16)⟩ .write :=
  ⟨⟨withBuffers 0 0xFFFFFFF1 0 (keyedState openPlatform), rfl, by decide⟩,
    ⟨withBuffers 0xFFFFFFF1 16 0 (keyedState openPlatform), rfl, by decide, by decide⟩,
    ⟨withBuffers 0 16 0xFFFFFFF1 (keyedState openPlatform), rfl, by decide, by decide, by decide⟩,
    ⟨withBuffers 0xFFFFFFFF 1 0xFFFFFFF0 (keyedState mutePlatform), rfl, by decide, by decide, by decide,
      mute_denies _ 0 .read, mute_denies _ 15 .write⟩⟩

theorem witness_DecmDecryptsMessage : ∃ s : State, s.status.keyValid = true ∧ s.len.toNat % 16 = 0 ∧
    s.srcAddr.toNat + s.len.toNat ≤ 2 ^ 32 ∧ s.dstAddr.toNat + s.len.toNat = 2 ^ 32 ∧
    answers s.platform ⟨s.srcAddr.toNat, s.len.toNat⟩ .read ∧ answers s.platform ⟨s.dstAddr.toNat, s.len.toNat⟩ .write ∧
    readsBeforeWrites s.srcAddr.toNat s.len.toNat s.dstAddr.toNat ∧ 1 < s.len.toNat / 16 :=
  ⟨withBuffers 0xFFFFFFC0 32 0xFFFFFFE0 (keyedState openPlatform), rfl, by decide, by decide, by decide,
    open_answers .read (by decide), open_answers .write (by decide), .inr (by decide), by decide⟩

theorem witness_DecmErrors : (∃ s : State, s.status.keyValid = true ∧ s.len.toNat % 16 ≠ 0) ∧
    (∃ s : State, s.status.keyValid = true ∧ s.len.toNat % 16 = 0 ∧ 2 ^ 32 + 1 = s.srcAddr.toNat + s.len.toNat) ∧
    (∃ s : State, s.status.keyValid = true ∧ s.len.toNat % 16 = 0 ∧ 2 ^ 32 + 1 = s.dstAddr.toNat + s.len.toNat) ∧
    ∃ s : State, s.status.keyValid = true ∧ s.len.toNat % 16 = 0 ∧ s.srcAddr.toNat + s.len.toNat = 2 ^ 32 ∧
      s.dstAddr.toNat + s.len.toNat = 2 ^ 32 ∧ denies s.platform ⟨s.srcAddr.toNat, s.len.toNat⟩ .read ∧
      denies s.platform ⟨s.dstAddr.toNat, s.len.toNat⟩ .write :=
  ⟨⟨withBuffers 0 15 0 (keyedState openPlatform), rfl, by decide⟩,
    ⟨withBuffers 0xFFFFFFF1 16 0 (keyedState openPlatform), rfl, by decide, by decide⟩,
    ⟨withBuffers 0 16 0xFFFFFFF1 (keyedState openPlatform), rfl, by decide, by decide⟩,
    ⟨withBuffers 0xFFFFFFF0 16 0xFFFFFFF0 (keyedState mutePlatform), rfl, by decide, by decide, by decide,
      mute_denies _ 15 .read, mute_denies _ 15 .write⟩⟩

/-- 17 bytes, source and destination overlapping forwards. -/
theorem witness_MessageBlocksInOrder : (∃ s : State, s.status.keyValid = true ∧ s.srcAddr.toNat + s.len.toNat ≤ 2 ^ 32 ∧
    s.dstAddr.toNat + 16 * ((s.len.toNat + 15) / 16) ≤ 2 ^ 32 ∧
    answers s.platform ⟨s.srcAddr.toNat, s.len.toNat⟩ .read ∧
    answers s.platform ⟨s.dstAddr.toNat, 16 * ((s.len.toNat + 15) / 16)⟩ .write ∧ s.len.toNat ≤ 0xFFFFFFF0 ∧
    1 < (s.len.toNat + 15) / 16) ∧ ∃ s : State, s.status.keyValid = true ∧ s.len.toNat % 16 = 0 ∧
    s.srcAddr.toNat + s.len.toNat ≤ 2 ^ 32 ∧ s.dstAddr.toNat + 16 * ((s.len.toNat + 15) / 16) ≤ 2 ^ 32 ∧
    answers s.platform ⟨s.srcAddr.toNat, s.len.toNat⟩ .read ∧
    answers s.platform ⟨s.dstAddr.toNat, 16 * ((s.len.toNat + 15) / 16)⟩ .write :=
  ⟨⟨withBuffers 0x1000 17 0x1008 (keyedState openPlatform), rfl, by decide, by decide, open_answers .read (by decide),
      open_answers .write (by decide), by decide, by decide⟩,
    ⟨withBuffers 0x1000 32 0x1008 (keyedState openPlatform), rfl, by decide, by decide, by decide,
      open_answers .read (by decide), open_answers .write (by decide)⟩⟩

theorem witness_DecmAfterEncmGivesPaddedMessage : ∃ (s : State) (d : Word), s.status.keyValid = true ∧
    s.len.toNat ≤ 0xFFFFFFF0 ∧ s.srcAddr.toNat + s.len.toNat ≤ 2 ^ 32 ∧
    s.dstAddr.toNat + 16 * ((s.len.toNat + 15) / 16) ≤ 2 ^ 32 ∧ d.toNat + 16 * ((s.len.toNat + 15) / 16) ≤ 2 ^ 32 ∧
    answers s.platform ⟨s.srcAddr.toNat, s.len.toNat⟩ .read ∧
    answers s.platform ⟨s.dstAddr.toNat, 16 * ((s.len.toNat + 15) / 16)⟩ .write ∧
    answers s.platform ⟨s.dstAddr.toNat, 16 * ((s.len.toNat + 15) / 16)⟩ .read ∧
    answers s.platform ⟨d.toNat, 16 * ((s.len.toNat + 15) / 16)⟩ .write ∧
    readsBeforeWrites s.srcAddr.toNat s.len.toNat s.dstAddr.toNat ∧
    readsBeforeWrites s.dstAddr.toNat (16 * ((s.len.toNat + 15) / 16)) d.toNat :=
  ⟨withBuffers 0x2000 17 0x3000 (keyedState openPlatform), 0x4000, rfl, by decide, by decide, by decide, by decide,
    open_answers .read (by decide), open_answers .write (by decide), open_answers .read (by decide),
    open_answers .write (by decide), .inr (by decide), .inr (by decide)⟩

theorem witness_BlockAndMessageCommandsAgree : ∃ s t u : State, s.status.keyValid = true ∧ s.len.toNat = 16 ∧
    s.srcAddr.toNat + 16 ≤ 2 ^ 32 ∧ s.dstAddr.toNat + 16 ≤ 2 ^ 32 ∧ answers s.platform ⟨s.srcAddr.toNat, 16⟩ .read ∧
    answers s.platform ⟨s.dstAddr.toNat, 16⟩ .write ∧
    exec .encb { s with blk := blockToWords (messageAt s.mem s.srcAddr.toNat 16) 0 } = .next t ∧
    exec .decb { s with blk := blockToWords (messageAt s.mem s.srcAddr.toNat 16) 0 } = .next u :=
  ⟨withBuffers 0x2000 16 0xFFFFFFF0 (keyedState openPlatform), _, _, rfl, by decide, by decide, by decide,
    open_answers .read (by decide), open_answers .write (by decide), rfl, rfl⟩

end Sys2Proof.Tests
end

section
/-! SUPPORT. Rotations (00_scope R10): the model's rotl and rotr are the library's rotations by the amount modulo 32, so
each moves bits along a cycle of 32 places; the laws of R10 are read off the places. -/

namespace Sys2Proof.Machine

/-! ### The amount modulo 32 -/

theorem amount_lt (n : Int) : (n % 32).toNat < 32 := by omega

@[simp] theorem rotl_emod (x : Word) (n : Int) : rotl x (n % 32) = rotl x n := by
  simp [rotl]

@[simp] theorem rotr_emod (x : Word) (n : Int) : rotr x (n % 32) = rotr x n := by
  simp [rotr]

theorem rotl_eq_self {n : Int} (x : Word) (h : n % 32 = 0) : rotl x n = x := by
  simp [rotl, h]

theorem rotr_eq_self {n : Int} (x : Word) (h : n % 32 = 0) : rotr x n = x := by
  simp [rotr, h]

/-- Of an amount that is a word only `u[4:0]` counts. -/
theorem extractLow5_emod (u : Word) : ((u.extractLsb' 0 5).toNat : Int) % 32 = (u.toNat : Int) % 32 := by
  simp [BitVec.extractLsb'_toNat]

/-! ### Each bit's place after a rotation -/

theorem rotl_eq_rotateLeft (x : Word) (n : Int) : rotl x n = x.rotateLeft (n % 32).toNat := by
  unfold rotl
  split
  next h => simp [h, BitVec.rotateLeft_def, BitVec.ushiftRight_eq_zero]
  next => rw [BitVec.rotateLeft_def, Nat.mod_eq_of_lt (amount_lt n)]

theorem rotr_eq_rotateRight (x : Word) (n : Int) : rotr x n = x.rotateRight (n % 32).toNat := by
  unfold rotr
  split
  next h => simp [h, BitVec.rotateRight_def]
  next => rw [BitVec.rotateRight_def, Nat.mod_eq_of_lt (amount_lt n)]

theorem getLsbD_rotl (x : Word) (n : Int) {k : Nat} (hk : k < 32) :
    (rotl x n).getLsbD k = x.getLsbD (((k : Int) - n) % 32).toNat := by
  rw [rotl_eq_rotateLeft, BitVec.getLsbD_rotateLeft, Nat.mod_eq_of_lt (amount_lt n)]
  by_cases hwrap : k < (n % 32).toNat
  · have hplace : 32 - (n % 32).toNat + k = (((k : Int) - n) % 32).toNat := by omega
    simp [hwrap, hplace]
  · have hplace : k - (n % 32).toNat = (((k : Int) - n) % 32).toNat := by omega
    simp [hwrap, hk, hplace]

theorem getLsbD_rotr (x : Word) (n : Int) {k : Nat} (hk : k < 32) :
    (rotr x n).getLsbD k = x.getLsbD (((k : Int) + n) % 32).toNat := by
  rw [rotr_eq_rotateRight, BitVec.getLsbD_rotateRight, Nat.mod_eq_of_lt (amount_lt n)]
  by_cases hwrap : k < 32 - (n % 32).toNat
  · have hplace : (n % 32).toNat + k = (((k : Int) + n) % 32).toNat := by omega
    simp [hwrap, hplace]
  · have hplace : k - (32 - (n % 32).toNat) = (((k : Int) + n) % 32).toNat := by omega
    simp [hwrap, hk, hplace]

/-! ### The rule's formula on unbounded integers -/

theorem toNat_ushiftRight_mod (x : Word) (k : Nat) : x.toNat >>> k % 2 ^ 32 = (x >>> k).toNat := by
  rw [← BitVec.toNat_ushiftRight, Nat.mod_eq_of_lt (x >>> k).isLt]

theorem toNat_rotl {n : Int} (x : Word) (h : (n % 32).toNat ≠ 0) :
    (rotl x n).toNat = (x.toNat <<< (n % 32).toNat ||| x.toNat >>> (32 - (n % 32).toNat)) % 2 ^ 32 := by
  rw [rotl, if_neg h, Nat.or_mod_two_pow, toNat_ushiftRight_mod, BitVec.toNat_or, BitVec.toNat_shiftLeft]

theorem toNat_rotr {n : Int} (x : Word) (h : (n % 32).toNat ≠ 0) :
    (rotr x n).toNat = (x.toNat >>> (n % 32).toNat ||| x.toNat <<< (32 - (n % 32).toNat)) % 2 ^ 32 := by
  rw [rotr, if_neg h, Nat.or_mod_two_pow, toNat_ushiftRight_mod, BitVec.toNat_or, BitVec.toNat_shiftLeft]

/-! ### Rotations undo each other -/

theorem rotl_eq_rotr_neg (x : Word) (n : Int) : rotl x n = rotr x (-n) := by
  apply BitVec.eq_of_getLsbD_eq
  intro k hk
  rw [getLsbD_rotl x n hk, getLsbD_rotr x (-n) hk, Int.sub_eq_add_neg]

@[simp] theorem rotl_rotr (x : Word) (n : Int) : rotl (rotr x n) n = x := by
  apply BitVec.eq_of_getLsbD_eq
  intro k hk
  have hback : (((((k : Int) - n) % 32).toNat + n) % 32).toNat = k := by omega
  rw [getLsbD_rotl _ n hk, getLsbD_rotr x n (amount_lt _), hback]

@[simp] theorem rotr_rotl (x : Word) (n : Int) : rotr (rotl x n) n = x := by
  have h := rotl_rotr x (-n)
  rwa [rotl_eq_rotr_neg _ (-n), ← rotl_eq_rotr_neg x n, Int.neg_neg] at h

end Sys2Proof.Machine
end

section
/-! SUPPORT. The statement of 00_scope R10, settled. -/

open Sys2Proof Sys2Proof.Machine

/-- Settles O46: the formula and the bits' places are the laws of rotations above; the rest follows from them. -/
theorem rotationsInvert : Obligations.RotationsInvert := by
  refine ⟨fun x n s hs => ?formula, fun x n k hk => ⟨getLsbD_rotl x n hk, getLsbD_rotr x n hk⟩,
    fun x u => ?lowFiveBits, fun x n => ⟨rotl_rotr x n, rotr_rotl x n, (rotl_emod x n).symm, (rotr_emod x n).symm,
      rotl_eq_rotr_neg x n⟩⟩
  case formula =>
    obtain rfl : s = (n % 32).toNat := by omega
    exact ⟨fun h => ⟨toNat_rotl x h, toNat_rotr x h⟩,
      fun h => ⟨rotl_eq_self x (by omega), rotr_eq_self x (by omega)⟩⟩
  case lowFiveBits =>
    rw [← rotl_emod x u.toNat, ← rotr_emod x u.toNat, ← extractLow5_emod u, rotl_emod, rotr_emod]
    exact ⟨rfl, rfl⟩

end

section
/-! SUPPORT. The endings of `exec`, said once for all commands, and what each of them leaves (10_state R43). -/

namespace Sys2Proof.Machine

/-! ### Endings of a command (60_exceptions R191, 20_memory R61) -/

/-- The states command `i` can leave `s` in, whichever way it ends. -/
inductive Ending (s : State) : Instr → State → Prop
  | failed {i : Instr} {e : ErrCode} (hi : i ≠ .ksched) (he : e ≠ .none) : Ending s i (s.ended e)
  | regionLost {i : Instr} (hi : i = .w2b ∨ i = .encm ∨ i = .decm) :
      Ending s i ((s.loseBytes (writtenRegion i s)).ended .busError)
  | wordLoaded (v : Word) : Ending s .b2w ((s.setWord v).ended .none)
  | wordStored {m : Memory} (hout : sameOutside (writtenRegion .w2b s) s.mem m) (hwf : s.mem.wf → m.wf) :
      Ending s .w2b ((s.setMem m).ended .none)
  | keyRefused {e : ErrCode} (he : e ≠ .none) : Ending s .ksched (((s.setKeyValid false).loseSubkeys).ended e)
  | keyScheduled {K : List Byte} (hK : K.length ≤ s.platform.keyMaxBytes.toNat) :
      Ending s .ksched (((s.setSubkeys (keySchedule K)).setKeyValid true).ended .none)
  | blockTransformed {i : Instr} (hi : i = .encb ∨ i = .decb) (x : Block) : Ending s i ((s.setBlk x).ended .none)
  | messageTransformed {i : Instr} (hi : i = .encm ∨ i = .decm) {m : Memory} (v : Word)
      (hout : sameOutside (writtenRegion i s) s.mem m) (hwf : s.mem.wf → m.wf) :
      Ending s i (((s.setMem m).setOutLen v).ended .none)

theorem ne_none_of_commandCheck {i : Instr} {s : State} {e : ErrCode} (h : commandCheck i s = some e) : e ≠ .none := by
  rintro rfl
  exact commandCheck_ne_none i s h

theorem sameOutside_writeList (m : Memory) {r : Region} {bs : List Byte} (hr : bs.length ≤ r.size) :
    sameOutside r m (m.writeList r.base bs) := by
  intro a ha
  rw [regionHas_false_iff] at ha
  rw [Memory.read_writeList, if_neg (by omega)]

theorem sameOutside_blocksWritten (f : Block → Block) (src len : Nat) (m : Memory) {r : Region} {n : Nat}
    (hr : 16 * n ≤ r.size) : sameOutside r m (blocksWritten f src len r.base n m) := by
  intro a ha
  rw [regionHas_false_iff] at ha
  exact blocksWritten_outside f src len r.base m a n (by omega)

theorem length_of_fetchBytes {p : Platform} {m : Memory} {base len k n : Nat} {K : List Byte}
    (h : fetchBytes p m base len k n = .ok K) : K.length = n := by
  rcases fetchBytes_cases p m base len k n with h' | h' <;> rw [h'] at h <;> cases h
  simp

theorem ending_b2w (s : State) : ∃ t, execB2w s = .next t ∧ Ending s .b2w t := by
  rcases execB2w_cases s with ⟨e, he, h⟩ | ⟨-, h⟩ | ⟨-, v, h⟩
  · exact ⟨_, h, .failed (by decide) (ne_none_of_commandCheck (i := .b2w) he)⟩
  · exact ⟨_, h, .failed (by decide) (by decide)⟩
  · exact ⟨_, h, .wordLoaded v⟩

theorem ending_w2b (s : State) : ∃ t, execW2b s = .next t ∧ Ending s .w2b t := by
  rcases execW2b_cases s with ⟨e, he, h⟩ | ⟨-, h⟩ | ⟨hc, h⟩
  · exact ⟨_, h, .failed (by decide) (ne_none_of_commandCheck (i := .w2b) he)⟩
  · exact ⟨_, h, .regionLost (.inl rfl)⟩
  · have hin := (w2bCheck_none_iff s).1 hc
    exact ⟨_, h, .wordStored (sameOutside_writeList s.mem (r := writtenRegion .w2b s) le_rfl)
      fun hwf => Memory.wf_writeList _ hwf (by simp only [length_wordToBytes]; omega)⟩

theorem ending_ksched (s : State) : ∃ t, execKsched s = .next t ∧ Ending s .ksched t := by
  rcases execKsched_cases s with ⟨e, he, h⟩ | ⟨hc, K, hK, h⟩
  · exact ⟨_, h, .keyRefused he⟩
  · have hlen := length_of_fetchBytes hK
    exact ⟨_, h, .keyScheduled (hlen ▸ ((kschedCheck_none_iff s).1 hc).1)⟩

theorem ending_encb (s : State) : ∃ t, execEncb s = .next t ∧ Ending s .encb t := by
  rcases execEncb_cases s with ⟨-, h⟩ | ⟨-, h⟩
  · exact ⟨_, h, .failed (by decide) (by decide)⟩
  · exact ⟨_, h, .blockTransformed (.inl rfl) _⟩

theorem ending_decb (s : State) : ∃ t, execDecb s = .next t ∧ Ending s .decb t := by
  rcases execDecb_cases s with ⟨-, h⟩ | ⟨-, h⟩
  · exact ⟨_, h, .failed (by decide) (by decide)⟩
  · exact ⟨_, h, .blockTransformed (.inr rfl) _⟩

theorem ending_encm (s : State) : ∃ t, execEncm s = .next t ∧ Ending s .encm t := by
  rcases execEncm_cases s with ⟨e, he, h⟩ | ⟨-, h⟩ | ⟨hc, h⟩
  · exact ⟨_, h, .failed (by decide) (ne_none_of_commandCheck (i := .encm) he)⟩
  · exact ⟨_, h, .regionLost (.inr (.inl rfl))⟩
  · obtain ⟨-, -, -, hin⟩ := (encmCheck_none_iff s).1 hc
    exact ⟨_, h, .messageTransformed (.inl rfl) _
      (sameOutside_blocksWritten _ _ _ s.mem (r := writtenRegion .encm s) le_rfl)
      fun hwf => wf_blocksWritten _ _ _ _ hwf _ hin⟩

theorem ending_decm (s : State) : ∃ t, execDecm s = .next t ∧ Ending s .decm t := by
  rcases execDecm_cases s with ⟨e, he, h⟩ | ⟨-, h⟩ | ⟨hc, h⟩
  · exact ⟨_, h, .failed (by decide) (ne_none_of_commandCheck (i := .decm) he)⟩
  · exact ⟨_, h, .regionLost (.inr (.inr rfl))⟩
  · obtain ⟨-, -, -, hin⟩ := (decmCheck_none_iff s).1 hc
    have hblocks : 16 * (s.len.toNat / 16) ≤ s.len.toNat := Nat.mul_div_le _ _
    exact ⟨_, h, .messageTransformed (.inr rfl) _
      (sameOutside_blocksWritten _ _ _ s.mem (r := writtenRegion .decm s) hblocks)
      fun hwf => wf_blocksWritten _ _ _ _ hwf _ (by omega)⟩

/-- Every command ends, in one of the endings. -/
theorem exec_ending (i : Instr) (s : State) : ∃ t, exec i s = .next t ∧ Ending s i t := by
  cases i with
  | b2w => exact ending_b2w s
  | w2b => exact ending_w2b s
  | ksched => exact ending_ksched s
  | encb => exact ending_encb s
  | decb => exact ending_decb s
  | encm => exact ending_encm s
  | decm => exact ending_decm s

theorem ending_of_exec {i : Instr} {s t : State} (h : exec i s = .next t) : Ending s i t := by
  obtain ⟨u, hu, hend⟩ := exec_ending i s
  rw [h] at hu
  cases hu
  exact hend

/-! ### What an ending leaves -/

@[simp] theorem State.ended_status (s : State) (e : ErrCode) :
    (s.ended e).status = ⟨false, true, s.status.keyValid, e⟩ := rfl

variable {i : Instr} {s t : State}

theorem Ending.platform (h : Ending s i t) : t.platform = s.platform := by cases h <;> rfl

theorem Ending.unsynced (h : Ending s i t) : t.unsynced = s.unsynced := by cases h <;> rfl

theorem Ending.busy (h : Ending s i t) : t.status.busy = false := by cases h <;> rfl

theorem Ending.done (h : Ending s i t) : t.status.done = true := by cases h <;> rfl

theorem Ending.word (h : Ending s i t) (hi : i ≠ .b2w) : t.word = s.word := by
  cases h with
  | wordLoaded => contradiction
  | _ => rfl

theorem Ending.blk (h : Ending s i t) (hi : i ≠ .encb ∧ i ≠ .decb) : t.blk = s.blk := by
  cases h with
  | blockTransformed hi' => exact absurd hi' (not_or.2 hi)
  | _ => rfl

theorem Ending.subkeys_keyValid (h : Ending s i t) (hi : i ≠ .ksched) :
    t.subkeys = s.subkeys ∧ t.status.keyValid = s.status.keyValid := by
  cases h with
  | keyRefused => contradiction
  | keyScheduled => contradiction
  | _ => exact ⟨rfl, rfl⟩

theorem Ending.outLen (h : Ending s i t) (hi : i ≠ .encm ∧ i ≠ .decm) : t.outLen = s.outLen := by
  cases h with
  | messageTransformed hi' => exact absurd hi' (not_or.2 hi)
  | _ => rfl

/-- Whichever command it is, an error code leaves OUT_LEN as command-start set it. -/
theorem Ending.outLen_of_err (h : Ending s i t) (he : t.status.err ≠ .none) : t.outLen = s.outLen := by
  cases h with
  | messageTransformed => exact absurd rfl he
  | _ => rfl

theorem Ending.mem (h : Ending s i t) (hi : i ≠ .w2b ∧ i ≠ .encm ∧ i ≠ .decm) : t.mem = s.mem := by
  obtain ⟨hw2b, hencm, hdecm⟩ := hi
  cases h with
  | regionLost hi' => simp [hw2b, hencm, hdecm] at hi'
  | wordStored => contradiction
  | messageTransformed hi' => simp [hencm, hdecm] at hi'
  | _ => rfl

theorem Ending.sameOutside (h : Ending s i t) : sameOutside (writtenRegion i s) s.mem t.mem := by
  cases h with
  | regionLost => exact State.loseBytes_sameOutside s _
  | wordStored hout => exact hout
  | messageTransformed _ _ hout => exact hout
  | _ => exact fun _ _ => rfl

theorem Ending.wf (h : Ending s i t) (hwf : s.mem.wf) : t.mem.wf := by
  cases h with
  | regionLost => exact State.wf_loseBytes hwf _
  | wordStored _ hm => exact hm hwf
  | messageTransformed _ _ _ hm => exact hm hwf
  | _ => exact hwf

end Sys2Proof.Machine
end

section
/-! SUPPORT. The statement of 10_state R43, settled. -/

open Sys2Proof Sys2Proof.Machine

/-- Settles O8: each clause is read off the endings of the command. -/
theorem commandWriteSets : Obligations.CommandWriteSets := by
  intro i s t h
  have hend := ending_of_exec h
  refine ⟨hend.word, hend.blk, hend.subkeys_keyValid, hend.outLen, hend.mem, ?_, ?_, ?_⟩
  all_goals
    rintro rfl
    exact hend.sameOutside

end

section
/-! SUPPORT. What a host's register access can do and which steps there are, said once; the statements about every step
are read off this. -/

namespace Sys2Proof.Machine

/-! ### Command words (30_encoding R83, R84) -/

theorem word_eq_append_fields (w : Word) : w = wordRsv w ++ wordOpc w := by
  apply BitVec.eq_of_toNat_eq
  simp only [wordRsv, wordOpc, BitVec.toNat_append, BitVec.extractLsb'_toNat]
  have := w.isLt
  rw [← Nat.shiftLeft_add_eq_or_of_lt (Nat.mod_lt _ (by decide))]
  simp only [Nat.shiftLeft_eq, Nat.shiftRight_eq_div_pow]
  omega

/-- A word that decodes to a command is that command's word, whole. -/
theorem eq_encode_of_decode {w : Word} {i : Instr} (h : decode w = .ok i) : w = encode i := by
  rw [word_eq_append_fields w]
  unfold decode at h
  split_ifs at h with hrsv <;> cases h
  all_goals
    rw [show wordRsv w = 0 by simpa using hrsv, ‹wordOpc w = _›]
    rfl

/-! ### Host register accesses (10_state R21 to R24, R44, R45) -/

variable {s t : State}

/-- What a write to a read-write register leaves as it was: the fields of which none is such a register (10_state
R21). -/
structure OnlyOperands (s t : State) : Prop where
  platform : t.platform = s.platform
  status : t.status = s.status
  outLen : t.outLen = s.outLen
  subkeys : t.subkeys = s.subkeys
  pending : t.pending = s.pending
  mem : t.mem = s.mem

theorem OnlyOperands.refl (s : State) : OnlyOperands s s := ⟨rfl, rfl, rfl, rfl, rfl, rfl⟩

/-- A register write starts a command, or sets a register that holds plain data, or does nothing. -/
theorem writeRegister_cases (r : RegName) (v : Word) (s : State) :
    writeRegister r v s = commandStart v s ∨ OnlyOperands s (writeRegister r v s) := by
  cases r with
  | cmd => exact .inl rfl
  | _ => exact .inr ⟨rfl, rfl, rfl, rfl, rfl, rfl⟩

theorem hostRegWrite_cases (addr : Word) (size : AccessSize) (v : Word) (s : State) :
    hostRegWrite addr size v s = commandStart v s ∨ OnlyOperands s (hostRegWrite addr size v s) := by
  unfold hostRegWrite hostWriteAt
  split
  · split_ifs
    · exact .inr (.refl s)
    · split
      · exact writeRegister_cases _ v s
      · exact .inr (.refl s)
  · exact .inr (.refl s)

/-- A register read changes what the host has read, the free values drawn and the note of started commands alone. -/
theorem hostReadAt_shape (off : BitVec 9) (s : State) :
    ∃ v n u, hostReadAt off s = { s with readData := v, freeCount := n, unsynced := u } := by
  unfold hostReadAt
  split_ifs
  · exact ⟨_, _, _, rfl⟩
  · split <;> exact ⟨_, _, _, rfl⟩

theorem hostRegRead_shape (addr : Word) (size : AccessSize) (s : State) :
    ∃ v n u, hostRegRead addr size s = { s with readData := v, freeCount := n, unsynced := u } := by
  unfold hostRegRead
  split
  · exact hostReadAt_shape _ s
  · exact ⟨_, _, _, rfl⟩

/-! ### Host data accesses (20_memory R64) -/

theorem hostMemWrite_permitted {a : Word} (b : Byte) (hrace : s.noRace) (h : racesAt s a.toNat .write = false) :
    hostMemWrite a b s = s.setMem (s.mem.write a.toNat b) := by
  have htouch : (s.setMem (s.mem.write a.toNat b)).touch a.toNat .write = s.setMem (s.mem.write a.toNat b) :=
    State.touch_permitted h
  rw [hostMemWrite, htouch]
  exact settle_eq_self _ hrace

theorem hostMemRead_permitted {a : Word} (h : racesAt s a.toNat .read = false) :
    hostMemRead a s = s.answer ((s.mem.read a.toNat).setWidth 32) := by
  simp [hostMemRead, h]

/-! ### Steps -/

/-- The state once its next turn has left the agenda. -/
def State.turnTaken (s : State) : State := { s with agenda := s.agenda.tail }

/-- The states a step can lead to: the idle engine's, the end of a command, the illegal ending, a host's transaction,
reset. -/
inductive Stepped (s : State) : State → Prop
  | idle (hb : s.status.busy = false) (hn : s.engineNext) : Stepped s s.turnTaken
  | command {i : Instr} {u : State} (hb : s.status.busy = true) (hn : s.engineNext) (hd : decode s.pending = .ok i)
      (hend : Ending s.turnTaken i u) : Stepped s (settle u)
  | illegal (hb : s.status.busy = true) : Stepped s (settle (s.turnTaken.ended .illegalCmd))
  | host {op : HostOp} (hh : s.agenda.head? = some (.host op)) : Stepped s (hostAccess op s.turnTaken)
  | reset (hh : s.agenda.head? = some .reset) : Stepped s (resetBlock s.turnTaken)

theorem stepped_of_engineTurn (hn : s.engineNext) (h : engineTurn s.turnTaken = .next t) : Stepped s t := by
  unfold engineTurn engineStep at h
  split_ifs at h with hb
  · split at h
    next i hd =>
      obtain ⟨u, hu, hend⟩ := exec_ending i s.turnTaken
      rw [hu] at h
      cases h
      exact .command hb hn hd hend
    next =>
      cases h
      exact .illegal hb
  · cases h
    exact .idle (Bool.eq_false_of_not_eq_true hb) hn

theorem stepped_of_step (h : step s = .next t) : Stepped s t := by
  cases ha : s.agenda with
  | nil =>
    have hn : s.engineNext := .inl ha
    rw [step_eq_engine hn] at h
    exact stepped_of_engineTurn hn h
  | cons turn rest =>
    have htaken : ({ s with agenda := rest } : State) = s.turnTaken := by simp [State.turnTaken, ha]
    have hhead : s.agenda.head? = some turn := by simp [ha]
    rw [step_eq_cons ha, htaken] at h
    cases turn with
    | engine => exact stepped_of_engineTurn (.inr hhead) h
    | host op => cases h; exact .host hhead
    | reset => cases h; exact .reset hhead

/-- A step that takes a host's turn is that transaction. -/
theorem step_eq_host {op : HostOp} {rest : List Turn} (h : s.agenda = .host op :: rest) :
    step s = .next (hostAccess op { s with agenda := rest }) := step_eq_cons h

end Sys2Proof.Machine
end

section
/-! SUPPORT. What every step keeps: the configuration, the invariant, the key. -/

namespace Sys2Proof.Machine

variable {s t : State}

/-! ### The configuration (10_state R20) -/

theorem settle_platform (s : State) : (settle s).platform = s.platform := (settle_effect s).1.platform

theorem resetBlock_platform (s : State) : (resetBlock s).platform = s.platform := by
  unfold resetBlock abandon
  split_ifs <;> rfl

theorem hostAccess_platform (op : HostOp) (s : State) : (hostAccess op s).platform = s.platform := by
  cases op with
  | regWrite addr size v =>
    rcases hostRegWrite_cases addr size v s with h | h
    · rw [hostAccess, h]; rfl
    · exact h.platform
  | regRead addr size =>
    obtain ⟨_, _, _, h⟩ := hostRegRead_shape addr size s
    rw [hostAccess, h]
  | memWrite a b => exact settle_platform _
  | memRead a =>
    rw [hostAccess, hostMemRead]
    split_ifs
    · exact settle_platform _
    · rfl

theorem Stepped.platform (h : Stepped s t) : t.platform = s.platform := by
  cases h with
  | idle => rfl
  | command hb hn hd hend => exact (settle_platform _).trans hend.platform
  | illegal => exact settle_platform _
  | host => exact hostAccess_platform _ _
  | reset => exact resetBlock_platform _

/-! ### The invariant (10_state R27 to R29, R32) -/

/-- In an idle block the invariant speaks of memory, the error code and OUT_LEN alone. -/
theorem State.Inv.of_idle (hb : s.status.busy = false) (hwf : s.mem.wf)
    (herr : s.status.err ≠ .none → s.status.done = true ∧ s.outLen = 0) : s.Inv := by
  refine ⟨hwf, by simp [hb], by simp [hb], fun hd => ?_, fun he => (herr he).2⟩
  by_contra he
  rw [(herr he).1] at hd
  contradiction

theorem State.Inv.congr (h : s.Inv) (hm : t.mem = s.mem) (hs : t.status = s.status) (ho : t.outLen = s.outLen)
    (hp : t.pending = s.pending) : t.Inv := by
  rw [State.Inv, hm, hs, ho, hp]
  exact h

theorem inv_settle (h : s.Inv) : (settle s).Inv := by
  obtain ⟨hwf, hbusy, hks, hdone, herr⟩ := h
  obtain ⟨hout, hlen, -⟩ := settle_effect s
  rw [State.Inv, hout.status, hout.pending]
  refine ⟨hout.wf hwf, fun hb => ?_, hks, hdone, fun he => (hlen (.inr he)).trans (herr he)⟩
  obtain ⟨hd, he, hl⟩ := hbusy hb
  exact ⟨hd, he, (hlen (.inl hb)).trans hl⟩

theorem inv_resetBlock (h : s.Inv) : (resetBlock s).Inv := by
  have hwf : (abandon s).mem.wf := by
    unfold abandon
    split_ifs
    · exact State.wf_loseBytes h.1 _
    · exact h.1
  exact .of_idle rfl hwf fun he => absurd rfl he

theorem inv_commandStart (v : Word) (hwf : s.mem.wf) : (commandStart v s).Inv := by
  refine ⟨hwf, fun _ => ⟨rfl, rfl, rfl⟩, fun _ hv => if_pos hv, fun _ => rfl, fun _ => rfl⟩

theorem inv_hostAccess (h : s.Inv) (op : HostOp) : (hostAccess op s).Inv := by
  have hwf := h.1
  cases op with
  | regWrite addr size v =>
    rcases hostRegWrite_cases addr size v s with hw | hw
    · rw [hostAccess, hw]
      exact inv_commandStart v hwf
    · exact h.congr hw.mem hw.status hw.outLen hw.pending
  | regRead addr size =>
    obtain ⟨_, _, _, hr⟩ := hostRegRead_shape addr size s
    rw [hostAccess, hr]
    exact h.congr rfl rfl rfl rfl
  | memWrite a b =>
    have hw : ((s.setMem (s.mem.write a.toNat b)).touch a.toNat .write).Inv :=
      ⟨Memory.wf_write hwf a.isLt b, h.2⟩
    exact inv_settle hw
  | memRead a =>
    rw [hostAccess, hostMemRead]
    split_ifs
    · exact inv_settle (h.congr rfl rfl rfl rfl)
    · exact h.congr rfl rfl rfl rfl

/-- Every step keeps the invariant: a command that ends found OUT_LEN 0, and an error leaves it so. -/
theorem Stepped.inv (h : Stepped s t) (hs : s.Inv) : t.Inv := by
  have hwf := hs.1
  have hlen (hb : s.status.busy = true) : s.outLen = 0 := (hs.2.1 hb).2.2
  cases h with
  | idle => exact hs.congr rfl rfl rfl rfl
  | command hb hn hd hend =>
    exact inv_settle <| .of_idle hend.busy (hend.wf hwf) fun he =>
      ⟨hend.done, (hend.outLen_of_err he).trans (hlen hb)⟩
  | illegal hb => exact inv_settle <| .of_idle rfl hwf fun _ => ⟨rfl, hlen hb⟩
  | host => exact inv_hostAccess (s := s.turnTaken) (hs.congr rfl rfl rfl rfl) _
  | reset => exact inv_resetBlock (s := s.turnTaken) (hs.congr rfl rfl rfl rfl)

/-! ### The key (10_state R28, R39) -/

/-- S stays, and a key that was not valid does not become valid. -/
structure KeepsKey (s t : State) : Prop where
  platform : t.platform = s.platform
  subkeys : t.subkeys = s.subkeys
  keyValid : t.status.keyValid = true → s.status.keyValid = true

theorem KeepsKey.keyed (h : KeepsKey s t) (hs : s.keyed) : t.keyed := by
  intro hv
  rw [h.platform, h.subkeys]
  exact hs (h.keyValid hv)

theorem keepsKey_commandStart (v : Word) (s : State) : KeepsKey s (commandStart v s) := by
  refine ⟨rfl, rfl, fun hv => ?_⟩
  simp only [commandStart, latchCommand] at hv
  split_ifs at hv
  exact hv

theorem keepsKey_hostRegWrite (addr : Word) (size : AccessSize) (v : Word) (s : State) :
    KeepsKey s (hostRegWrite addr size v s) := by
  rcases hostRegWrite_cases addr size v s with h | h
  · rw [h]
    exact keepsKey_commandStart v s
  · exact ⟨h.platform, h.subkeys, fun hv => h.status ▸ hv⟩

theorem keepsKey_hostRegRead (addr : Word) (size : AccessSize) (s : State) :
    KeepsKey s (hostRegRead addr size s) := by
  obtain ⟨_, _, _, h⟩ := hostRegRead_shape addr size s
  rw [h]
  exact ⟨rfl, rfl, id⟩

/-- No host's transaction changes the key, data accesses that R64 forbids apart. -/
theorem keepsKey_hostAccess {op : HostOp} (hrace : s.noRace) (hp : s.nextPermitted)
    (hh : s.agenda.head? = some (.host op)) : KeepsKey s (hostAccess op s.turnTaken) := by
  have of_taken {u : State} (h : KeepsKey s.turnTaken u) : KeepsKey s u := ⟨h.platform, h.subkeys, h.keyValid⟩
  cases op with
  | regWrite addr size v => exact of_taken (keepsKey_hostRegWrite addr size v _)
  | regRead addr size => exact of_taken (keepsKey_hostRegRead addr size _)
  | memWrite a b =>
    rw [hostAccess, hostMemWrite_permitted (s := s.turnTaken) b hrace (hp.1 a b hh)]
    exact ⟨rfl, rfl, id⟩
  | memRead a =>
    rw [hostAccess, hostMemRead_permitted (s := s.turnTaken) (hp.2 a hh)]
    exact ⟨rfl, rfl, id⟩

theorem Ending.keepsKey {i : Instr} (h : Ending s i t) (hi : i ≠ .ksched) : KeepsKey s t := by
  obtain ⟨hsub, hkv⟩ := h.subkeys_keyValid hi
  exact ⟨h.platform, hsub, fun hv => hkv ▸ hv⟩

theorem Ending.keyed {i : Instr} (h : Ending s i t) (hs : s.keyed) : t.keyed := by
  by_cases hi : i = .ksched
  · subst hi
    cases h with
    | failed hi' => contradiction
    | regionLost hi' => simp at hi'
    | keyRefused => exact fun hv => absurd hv (by simp)
    | keyScheduled hK => exact fun _ => ⟨_, hK, rfl⟩
    | blockTransformed hi' => simp at hi'
    | messageTransformed hi' => simp at hi'
  · exact (h.keepsKey hi).keyed hs

/-- A command that ends leaves no race where there was none. -/
theorem Ending.settle_eq {i : Instr} (h : Ending s.turnTaken i t) (hrace : s.noRace) : settle t = t :=
  settle_eq_self t (by rw [State.noRace, h.unsynced]; exact hrace)

theorem settle_illegal (hrace : s.noRace) :
    settle (s.turnTaken.ended .illegalCmd) = s.turnTaken.ended .illegalCmd := settle_eq_self _ hrace

theorem Stepped.keepsKey (h : Stepped s t) (hrace : s.noRace) (hp : s.nextPermitted)
    (hreset : s.agenda.head? ≠ some .reset)
    (hks : s.engineNext → s.status.busy = true → s.pending ≠ 0x00000003#32) : KeepsKey s t := by
  cases h with
  | idle => exact ⟨rfl, rfl, id⟩
  | @command i u hb hn hd hend =>
    have hi : i ≠ .ksched := by
      rintro rfl
      exact hks hn hb (eq_encode_of_decode hd)
    rw [hend.settle_eq hrace]
    obtain ⟨hpl, hsub, hkv⟩ := hend.keepsKey hi
    exact ⟨hpl, hsub, hkv⟩
  | illegal =>
    rw [settle_illegal hrace]
    exact ⟨rfl, rfl, id⟩
  | host hh => exact keepsKey_hostAccess hrace hp hh
  | reset hh => exact absurd hh hreset

theorem Stepped.keyed (h : Stepped s t) (hrace : s.noRace) (hp : s.nextPermitted) (hs : s.keyed) : t.keyed := by
  cases h with
  | idle => exact hs
  | command hb hn hd hend =>
    rw [hend.settle_eq hrace]
    exact hend.keyed hs
  | illegal =>
    rw [settle_illegal hrace]
    exact hs
  | host hh => exact (keepsKey_hostAccess hrace hp hh).keyed hs
  | reset => exact fun hv => absurd hv (by simp [resetBlock, resetRegisters])

/-! ### The latch of an idle block (10_state R40) -/

/-- PENDING <- v. -/
def State.setPending (v : Word) (s : State) : State := { s with pending := v }

theorem settleOlder_setPending (f : Footprint) (v : Word) (s : State) :
    settleOlder f (s.setPending v) = (settleOlder f s).setPending v := by
  unfold settleOlder
  split_ifs
  · rcases f.command with _ | i
    · rfl
    · cases i <;> rfl
  · rfl

theorem settleLast_setPending (f : Footprint) (v : Word) (s : State) :
    settleLast f (s.setPending v) = (settleLast f s).setPending v := by
  have hs : (s.setPending v).status = s.status := rfl
  unfold settleLast
  rw [hs]
  split_ifs
  · rcases f.command with _ | i
    · rfl
    · cases i <;> rfl
  · rfl
  · rfl

theorem settleOlders_setPending (fs : List Footprint) (v : Word) : ∀ s : State,
    fs.foldl (fun t g => settleOlder g t) (s.setPending v) =
      (fs.foldl (fun t g => settleOlder g t) s).setPending v := by
  induction fs with
  | nil => exact fun _ => rfl
  | cons f fs ih =>
    intro s
    rw [List.foldl_cons, settleOlder_setPending, ih, List.foldl_cons]

/-- Races take effect without a look at the latch. -/
theorem settle_setPending (v : Word) (s : State) : settle (s.setPending v) = (settle s).setPending v := by
  have hs : (s.setPending v).status = s.status := rfl
  have hu : (s.setPending v).unsynced = s.unsynced := rfl
  cases h : s.unsynced with
  | nil => simp only [settle, hu, h]
  | cons f older =>
    simp only [settle, hs, hu, h, settleOlders_setPending, settleLast_setPending]
    split_ifs <;> rfl

theorem hostRegRead_setPending (addr : Word) (size : AccessSize) (v : Word) (s : State) :
    hostRegRead addr size (s.setPending v) = (hostRegRead addr size s).setPending v := by
  have hp : (s.setPending v).platform = s.platform := rfl
  have hfree (r : Option RegName) : readIsFree r (s.setPending v) = readIsFree r s := rfl
  unfold hostRegRead hostReadAt
  rw [hp]
  split
  · rw [hfree]
    split_ifs
    · rfl
    · split <;> rfl
  · rfl

theorem writeRegister_setPending (r : RegName) (x v : Word) (s : State) :
    writeRegister r x (s.setPending v) = writeRegister r x s ∨
      writeRegister r x (s.setPending v) = (writeRegister r x s).setPending v := by
  cases r with
  | cmd => exact .inl rfl
  | _ => exact .inr rfl

theorem hostRegWrite_setPending (addr : Word) (size : AccessSize) (x v : Word) (s : State) :
    hostRegWrite addr size x (s.setPending v) = hostRegWrite addr size x s ∨
      hostRegWrite addr size x (s.setPending v) = (hostRegWrite addr size x s).setPending v := by
  have hp : (s.setPending v).platform = s.platform := rfl
  have hs : (s.setPending v).status = s.status := rfl
  unfold hostRegWrite hostWriteAt
  rw [hp, hs]
  split
  · split_ifs
    · exact .inr rfl
    · split
      · exact writeRegister_setPending _ x v s
      · exact .inr rfl
  · exact .inr rfl

/-- No transaction looks at the latch; a write to CMD overwrites it. -/
theorem hostAccess_setPending (op : HostOp) (v : Word) (s : State) :
    hostAccess op (s.setPending v) = hostAccess op s ∨
      hostAccess op (s.setPending v) = (hostAccess op s).setPending v := by
  cases op with
  | regWrite addr size x => exact hostRegWrite_setPending addr size x v s
  | regRead addr size => exact .inr (hostRegRead_setPending addr size v s)
  | memWrite a b =>
    exact .inr (settle_setPending v ((s.setMem (s.mem.write a.toNat b)).touch a.toNat .write))
  | memRead a =>
    right
    have hraces : racesAt (s.setPending v) a.toNat .read = racesAt s a.toNat .read := rfl
    simp only [hostAccess, hostMemRead, hraces]
    split_ifs
    · exact settle_setPending v (State.touch a.toNat .read
        { s with readData := (Config.freeByte s.freeCount).setWidth 32, freeCount := s.freeCount + 1 })
    · rfl

theorem resetBlock_setPending (hb : s.status.busy = false) (v : Word) :
    resetBlock (s.setPending v) = resetBlock s := by
  have hidle {u : State} (h : u.status.busy = false) : abandon u = u := by simp [abandon, h]
  rw [resetBlock, resetBlock, hidle hb, hidle (show (s.setPending v).status.busy = false from hb)]
  rfl

theorem takeTurn_setPending (turn : Turn) (hb : s.status.busy = false) (v : Word) :
    ∃ t u, takeTurn turn s = .next t ∧ takeTurn turn (s.setPending v) = .next u ∧ (u = t ∨ u = t.setPending v) := by
  cases turn with
  | engine => exact ⟨s, s.setPending v, by simp [takeTurn, engineTurn, hb],
      by simp [takeTurn, engineTurn, State.setPending, hb], .inr rfl⟩
  | host op => exact ⟨_, _, rfl, rfl, hostAccess_setPending op v s⟩
  | reset => exact ⟨_, _, rfl, rfl, .inl (resetBlock_setPending hb v)⟩

theorem step_setPending (hb : s.status.busy = false) (v : Word) :
    ∃ t u, step s = .next t ∧ step (s.setPending v) = .next u ∧ (u = t ∨ u = t.setPending v) := by
  cases ha : s.agenda with
  | nil =>
    have hv : (s.setPending v).agenda = [] := ha
    rw [step_eq_nil ha, step_eq_nil hv]
    exact takeTurn_setPending .engine hb v
  | cons turn rest =>
    have hv : (s.setPending v).agenda = turn :: rest := ha
    rw [step_eq_cons ha, step_eq_cons hv]
    exact takeTurn_setPending (s := { s with agenda := rest }) turn hb v

end Sys2Proof.Machine
end

section
/-! SUPPORT. The statements of 10_state about every step and about reset, settled. -/

open Sys2Proof Sys2Proof.Machine

/-- Settles O18: `Stepped` says what a step can do, and each of its cases keeps the invariant. -/
theorem stepKeepsInvariant : Obligations.StepKeepsInvariant := fun _ _ hinv h => (stepped_of_step h).inv hinv

/-- Settles O22: KEY_VALID is 0 after reset, and each case of a step keeps the key or ends a KSCHED. -/
theorem keyValidMeansSchedule : Obligations.KeyValidMeansSchedule :=
  ⟨fun hv => absurd hv Bool.false_ne_true, fun _ _ h hrace hp hs => (stepped_of_step h).keyed hrace hp hs⟩

/-- Settles O21: of the cases of a step only the end of a KSCHED and reset write S. -/
theorem subkeysStayBetweenKscheds : Obligations.SubkeysStayBetweenKscheds := fun _ _ h hrace hp hreset hks =>
  ((stepped_of_step h).keepsKey hrace hp hreset hks).subkeys

/-- Settles O19: no case of a step writes the configuration. -/
theorem platformNeverChanges : Obligations.PlatformNeverChanges := fun _ _ h => (stepped_of_step h).platform

/-- Settles O20: an idle block's turn looks at no latch; a write to CMD and reset overwrite it. -/
theorem idleLatchIsUnobservable : Obligations.IdleLatchIsUnobservable := fun _ v hb => step_setPending hb v

/-- Settles O17: the block is idle after reset, with empty memory and no error. -/
theorem invariantHoldsAtReset : Obligations.InvariantHoldsAtReset :=
  have hinv (p : Platform) : (State.resetOn p).Inv := .of_idle rfl Memory.wf_nil fun he => absurd rfl he
  ⟨hinv _, hinv⟩

/-- Settles O15: reset writes these values, and STATUS of them is 0. -/
theorem resetStateValues : Obligations.ResetStateValues := fun _ =>
  ⟨rfl, (by decide : statusWord ⟨false, false, false, .none⟩ = 0), rfl, rfl, rfl, rfl, rfl, rfl, rfl, rfl, rfl, rfl⟩

end

section
/-! SUPPORT. The register block as the host bus sees it: the map of offsets and addresses, STATUS as a word, and what
each register access does (10_state R21 to R25, R44, R45). -/

namespace Sys2Proof.Machine

/-! ### The register map (10_state R21) -/

theorem toNat_regOffset_subkey (i : Fin 44) : (regOffset (.subkey i)).toNat = 0x100 + 4 * i.val := by
  simp only [regOffset, BitVec.toNat_add, BitVec.toNat_ofNat, BitVec.reduceToNat]
  omega

theorem regOffset_aligned (r : RegName) : (regOffset r).toNat % 4 = 0 := by
  cases r with
  | subkey i => rw [toNat_regOffset_subkey]; omega
  | _ => rfl

/-- The register at an offset is the one of that offset. -/
theorem eq_regOffset_of_regAt {off : BitVec 9} {r : RegName} (h : regAt off = some r) : off = regOffset r := by
  simp only [regAt, ite_eq_iff, dite_eq_iff, Option.some.injEq, reduceCtorEq, and_false, exists_false, or_false] at h
  iterate 16
    rcases h with ⟨rfl, rfl⟩ | ⟨-, h⟩
    · rfl
  obtain ⟨haligned, ⟨hlow, _⟩, rfl⟩ := h
  apply BitVec.eq_of_toNat_eq
  rw [toNat_regOffset_subkey]
  simp only
  omega

@[simp] theorem regAt_regOffset (r : RegName) : regAt (regOffset r) = some r := by
  cases r with
  | subkey i => decide +revert
  | _ => rfl

theorem regAt_eq_some_iff (off : BitVec 9) (r : RegName) : regAt off = some r ↔ off = regOffset r :=
  ⟨eq_regOffset_of_regAt, fun h => h ▸ regAt_regOffset r⟩

/-- The offsets of R23 hold no register. -/
theorem regAt_eq_none_iff {off : BitVec 9} (h : off.toNat % 4 = 0) : regAt off = none ↔
    off.toNat = 0x028 ∨ off.toNat = 0x02C ∨ (0x048 ≤ off.toNat ∧ off.toNat ≤ 0x0FC) ∨ 0x1B0 ≤ off.toNat := by
  simp only [regAt, ite_eq_iff, dite_eq_iff, reduceCtorEq, BitVec.toNat_eq, BitVec.reduceToNat, h, and_false, false_or,
    exists_prop, and_true, true_and, not_true_eq_false, or_false]
  omega

/-! ### Addresses of the block (20_memory R51, 30_encoding R89) -/

/-- BASE + offset puts the offset below BASE's bits. -/
theorem regAddr_eq_append (p : Platform) (r : RegName) : regAddr p r = p.baseIndex ++ regOffset r := by
  have hlt := (regOffset r).isLt
  have hbase := p.baseIndex.isLt
  apply BitVec.eq_of_toNat_eq
  rw [regAddr, baseAddr, BitVec.toNat_add, BitVec.toNat_append, BitVec.toNat_append, BitVec.toNat_setWidth,
    ← Nat.shiftLeft_add_eq_or_of_lt hlt, Nat.shiftLeft_eq]
  simp
  omega

theorem toNat_baseAddr (p : Platform) : (baseAddr p).toNat = 512 * p.baseIndex.toNat := by
  rw [baseAddr, BitVec.toNat_append, Nat.shiftLeft_eq, Nat.mul_comm]
  simp

theorem toNat_regAddr (p : Platform) (r : RegName) :
    (regAddr p r).toNat = (baseAddr p).toNat + (regOffset r).toNat := by
  rw [regAddr_eq_append, toNat_baseAddr, BitVec.toNat_append, ← Nat.shiftLeft_add_eq_or_of_lt (regOffset r).isLt,
    Nat.shiftLeft_eq]
  omega

@[simp] theorem definedOffset_regAddr (p : Platform) (r : RegName) :
    definedOffset p (regAddr p r) .word = some (regOffset r) := by
  have haligned : (regAddr p r).toNat % 4 = 0 := by
    have := regOffset_aligned r
    rw [toNat_regAddr, toNat_baseAddr]
    omega
  have hbase : (regAddr p r).extractLsb' 9 23 = p.baseIndex := by
    rw [regAddr_eq_append]
    exact BitVec.extractLsb'_append_eq_left
  have hoff : (regAddr p r).extractLsb' 0 9 = regOffset r := by
    rw [regAddr_eq_append]
    exact BitVec.extractLsb'_append_eq_right
  rw [definedOffset, if_pos haligned, blockOffset, if_pos hbase, hoff]

theorem definedOffset_undefined (p : Platform) {addr : Word} {size : AccessSize}
    (h : size ≠ .word ∨ addr.toNat % 4 ≠ 0) : definedOffset p addr size = none := by
  cases size with
  | byte => rfl
  | half => rfl
  | word => exact if_neg (h.resolve_left fun hne => hne rfl)

/-! ### STATUS as a word (10_state R25) -/

theorem getLsbD_statusWord (t : Status) (k : Nat) : (statusWord t).getLsbD k =
    if k = 0 then t.busy else if k = 1 then t.done else if k = 2 then t.keyValid
    else decide (8 ≤ k) && (errCode t.err).getLsbD (k - 8) := by
  simp only [statusWord, BitVec.getLsbD_append, BitVec.getLsbD_ofBool]
  grind

theorem getLsbD_statusWord_high (t : Status) {k : Nat} (hk : 3 ≤ k) :
    (statusWord t).getLsbD k = (decide (8 ≤ k) && (errCode t.err).getLsbD (k - 8)) := by
  rw [getLsbD_statusWord, if_neg (by omega), if_neg (by omega), if_neg (by omega)]

theorem extractLsb'_statusWord_err (t : Status) : (statusWord t).extractLsb' 8 4 = errCode t.err := by
  apply BitVec.eq_of_getLsbD_eq
  intro k hk
  rw [BitVec.getLsbD_extractLsb', getLsbD_statusWord_high t (by omega)]
  simp [hk]

/-- Bits 7:3 and 31:12 of STATUS are 0. -/
theorem getLsbD_statusWord_reserved (t : Status) {k : Nat} (hk : 3 ≤ k ∧ k ≤ 7 ∨ 12 ≤ k) :
    (statusWord t).getLsbD k = false := by
  rw [getLsbD_statusWord_high t (by omega)]
  rcases hk with hlow | hhigh
  · simp only [show ¬8 ≤ k by omega, decide_false, Bool.false_and]
  · rw [BitVec.getLsbD_of_ge (errCode t.err) (k - 8) (by omega), Bool.and_false]

theorem toNat_errCode_lt (e : ErrCode) : (errCode e).toNat < 8 := by
  cases e <;> decide

/-! ### Register writes (10_state R21, R23, R44) -/

variable {s : State}

theorem hostRegWrite_busy (hb : s.status.busy = true) (addr : Word) (size : AccessSize) (v : Word) :
    hostRegWrite addr size v s = s := by
  unfold hostRegWrite hostWriteAt
  split
  · exact if_pos hb
  · rfl

theorem hostRegWrite_idle (hb : s.status.busy = false) (r : RegName) (v : Word) :
    hostRegWrite (regAddr s.platform r) .word v s = writeRegister r v s := by
  simp [hostRegWrite, hostWriteAt, hb]

theorem hostRegWrite_undefined {addr : Word} {size : AccessSize} (h : size ≠ .word ∨ addr.toNat % 4 ≠ 0) (v : Word) :
    hostRegWrite addr size v s = s := by
  rw [hostRegWrite, definedOffset_undefined _ h]

/-- The registers a host cannot write (10_state R21). -/
def ReadOnly (r : RegName) : Prop :=
  r = .status ∨ r = .outLen ∨ r = .param ∨ r = .keyMax ∨ ∃ i, r = .subkey i

theorem hostWriteAt_readOnly {off : BitVec 9} (h : ∀ r, regAt off = some r → ReadOnly r) (v : Word) (s : State) :
    hostWriteAt off v s = s := by
  unfold hostWriteAt
  split_ifs
  · rfl
  · split
    next r hr => rcases h r hr with rfl | rfl | rfl | rfl | ⟨i, rfl⟩ <;> rfl
    next => rfl

/-! ### Register reads (10_state R21, R23, R24, R38, R45) -/

theorem hostReadAt_reserved {off : BitVec 9} (h : regAt off = none) (s : State) : hostReadAt off s = s.answer 0 := by
  simp [hostReadAt, h, readIsFree]

theorem hostRegRead_free {r : RegName} (h : readIsFree (some r) s = true) :
    hostRegRead (regAddr s.platform r) .word s = s.answerFree := by
  simp [hostRegRead, hostReadAt, h]

/-- A read that is specified returns the register; a STATUS read that shows BUSY = 0 ends the note of started
commands. -/
theorem hostRegRead_answered {r : RegName} (h : readIsFree (some r) s = false) :
    hostRegRead (regAddr s.platform r) .word s = { s with
      readData := regValue r s, unsynced := if r = .status ∧ s.status.busy = false then [] else s.unsynced } := by
  simp only [hostRegRead, definedOffset_regAddr, hostReadAt, regAt_regOffset, h]
  cases r with
  | status => cases hb : s.status.busy <;> simp [readStatus, hb, regValue]
  | _ => simp [State.answer]

theorem hostRegRead_undefined {addr : Word} {size : AccessSize} (h : size ≠ .word ∨ addr.toNat % 4 ≠ 0) :
    hostRegRead addr size s = s.answerFree := by
  rw [hostRegRead, definedOffset_undefined _ h]

/-- The reads of STATUS, PARAM and KEY_MAX are specified whatever BUSY is. -/
theorem readIsFree_eq_false {r : RegName} (hr : r = .status ∨ r = .param ∨ r = .keyMax) :
    readIsFree (some r) s = false := by
  rcases hr with rfl | rfl | rfl <;> rfl

/-- While BUSY = 0 only a SUBKEY read with KEY_VALID = 0 is unspecified. -/
theorem readIsFree_idle (hb : s.status.busy = false) {r : RegName} (h : readIsFree (some r) s = true) :
    (∃ i, r = .subkey i) ∧ s.status.keyValid = false := by
  cases r with
  | subkey i => exact ⟨⟨i, rfl⟩, by simpa [readIsFree, hb] using h⟩
  | _ => simp [readIsFree, hb] at h

/-! ### Steps that take a register access -/

section Turn

variable {addr v : Word} {size : AccessSize} {r : RegName} {rest : List Turn}

theorem step_regWrite_busy (hb : s.status.busy = true) (ha : s.agenda = .host (.regWrite addr size v) :: rest) :
    step s = .next { s with agenda := rest } :=
  (step_eq_host ha).trans
    (congrArg Host.Outcome.next (hostRegWrite_busy (s := { s with agenda := rest }) hb addr size v))

theorem step_regWrite_idle (hb : s.status.busy = false)
    (ha : s.agenda = .host (.regWrite (regAddr s.platform r) .word v) :: rest) :
    step s = .next (writeRegister r v { s with agenda := rest }) :=
  (step_eq_host ha).trans (congrArg Host.Outcome.next (hostRegWrite_idle (s := { s with agenda := rest }) hb r v))

theorem step_regRead_free (hfree : readIsFree (some r) s = true)
    (ha : s.agenda = .host (.regRead (regAddr s.platform r) .word) :: rest) :
    step s = .next { s with
      agenda := rest, readData := Config.freeWord s.freeCount, freeCount := s.freeCount + 1 } :=
  (step_eq_host ha).trans (congrArg Host.Outcome.next (hostRegRead_free (s := { s with agenda := rest }) hfree))

theorem step_regRead_answered (hfree : readIsFree (some r) s = false)
    (ha : s.agenda = .host (.regRead (regAddr s.platform r) .word) :: rest) :
    step s = .next { s with
      agenda := rest, readData := regValue r s,
      unsynced := if r = .status ∧ s.status.busy = false then [] else s.unsynced } := by
  have hval : regValue r { s with agenda := rest } = regValue r s := by cases r <;> rfl
  have h := hostRegRead_answered (s := { s with agenda := rest }) hfree
  rw [hval] at h
  exact (step_eq_host ha).trans (congrArg Host.Outcome.next h)

end Turn

end Sys2Proof.Machine
end

section
/-! SUPPORT. The statements of 10_state about the register block, settled. -/

open Sys2Proof Sys2Proof.Machine

/-- Settles O23: offsets and registers determine each other, and BASE leaves the offset's bits free. -/
theorem registerMapRoundTrip : Obligations.RegisterMapRoundTrip :=
  ⟨rfl, rfl, rfl, rfl, rfl, rfl, rfl, rfl, rfl, rfl, rfl, rfl, rfl, rfl, rfl, rfl, toNat_regOffset_subkey,
    regAt_eq_some_iff, fun p r => ⟨toNat_regAddr p r, by rw [toNat_baseAddr]; omega, definedOffset_regAddr p r⟩⟩

/-- Settles O31: a register access starts a command, sets plain registers or answers, and none of these writes S or
memory. -/
theorem registerAccessReachesNoSubkey : Obligations.RegisterAccessReachesNoSubkey := by
  rintro s t addr v size rest (ha | ha) h
  · rw [step_eq_host ha, hostAccess] at h
    cases h
    rcases hostRegWrite_cases addr size v { s with agenda := rest } with hw | hw
    · rw [hw]; exact ⟨rfl, rfl⟩
    · exact ⟨hw.subkeys, hw.mem⟩
  · rw [step_eq_host ha, hostAccess] at h
    cases h
    obtain ⟨_, _, _, hr⟩ := hostRegRead_shape addr size { s with agenda := rest }
    rw [hr]
    exact ⟨rfl, rfl⟩

/-- Settles O24: every bit of STATUS is known. -/
theorem statusWordFields : Obligations.StatusWordFields :=
  ⟨fun t => ⟨getLsbD_statusWord t 0, getLsbD_statusWord t 1, getLsbD_statusWord t 2, extractLsb'_statusWord_err t,
    toNat_errCode_lt t.err, fun _ hk => getLsbD_statusWord_reserved t hk⟩, rfl, rfl, rfl, rfl, rfl, rfl, rfl, rfl⟩

/-- Settles O25: a busy block drops every write. -/
theorem busyWritesAreDropped : Obligations.BusyWritesAreDropped := fun _ _ _ _ _ hb ha => step_regWrite_busy hb ha

/-- Settles O26: a read is answered or returns a free word; STATUS, PARAM and KEY_MAX are answered. -/
theorem busyReadsAnswer : Obligations.BusyReadsAnswer := by
  intro s r rest hb ha
  cases hfree : readIsFree (some r) s with
  | true =>
    have hr : ¬(r = .status ∨ r = .param ∨ r = .keyMax) := fun hr => by simp [readIsFree_eq_false hr] at hfree
    simp only [not_or] at hr
    obtain ⟨hstatus, hparam, hmax⟩ := hr
    exact ⟨_, _, step_regRead_free hfree ha, fun h => absurd h hstatus, fun h => absurd h hparam,
      fun h => absurd h hmax⟩
  | false =>
    have hstep := step_regRead_answered hfree ha
    have hval (q : RegName) (h : r = q) : regValue r s = regValue q s := congrArg (regValue · s) h
    simp only [hb, Bool.true_eq_false, and_false, if_false] at hstep
    exact ⟨_, _, hstep, hval .status, hval .param, hval .keyMax⟩

/-- Settles O27: only a SUBKEY read without a valid key returns a free word; every other read returns the register. -/
theorem idleReadsAnswer : Obligations.IdleReadsAnswer := by
  intro s r rest hb ha
  cases hfree : readIsFree (some r) s with
  | true =>
    obtain ⟨⟨i, rfl⟩, hkv⟩ := readIsFree_idle hb hfree
    exact ⟨_, _, step_regRead_free hfree ha, by simp [hkv]⟩
  | false =>
    have hstep := step_regRead_answered hfree ha
    have hval (q : RegName) (h : r = q) : regValue r s = regValue q s := congrArg (regValue · s) h
    simp only [hb, and_true] at hstep
    exact ⟨_, _, hstep, fun _ => rfl, hval .cmd, hval .status, hval .keyAddr, hval .keyLen, hval .srcAddr,
      hval .dstAddr, hval .len, hval .offset, hval .outLen, hval .word, hval .blkA, hval .blkB, hval .blkC,
      hval .blkD, hval .param, hval .keyMax, fun i h _ => hval (.subkey i) h⟩

/-- Settles O28: an idle write to a read-write register is that register's update. -/
theorem idleWritesSetOneRegister : Obligations.IdleWritesSetOneRegister := by
  intro s v rest r hb ha
  have hstep (q : RegName) (h : r = q) : step s = .next (writeRegister q v { s with agenda := rest }) :=
    h ▸ step_regWrite_idle hb ha
  exact ⟨hstep .keyAddr, hstep .keyLen, hstep .srcAddr, hstep .dstAddr, hstep .len, hstep .offset, hstep .word,
    hstep .blkA, hstep .blkB, hstep .blkC, hstep .blkD⟩

/-- Settles O29: no write reaches a read-only register or a reserved offset, and the latter reads 0. -/
theorem readOnlyAndReservedOffsets : Obligations.ReadOnlyAndReservedOffsets := by
  refine ⟨fun off h => regAt_eq_none_iff h,
    fun s addr v off rest hoff => ⟨fun hoffs ha => ?write, fun hnone ha => ?read⟩⟩
  case write =>
    have hro : ∀ r, regAt off = some r → ReadOnly r := by
      intro r hr
      simpa [hr, ReadOnly] using hoffs
    rw [step_eq_host ha, hostAccess, hostRegWrite, hoff]
    exact congrArg Host.Outcome.next (hostWriteAt_readOnly hro v _)
  case read =>
    rw [step_eq_host ha, hostAccess, hostRegRead, hoff]
    exact congrArg Host.Outcome.next (hostReadAt_reserved hnone _)

/-- Settles O30: an access that is not defined has no offset: the write is dropped, the read returns a free word. -/
theorem undefinedAccessesHaveNoEffect : Obligations.UndefinedAccessesHaveNoEffect := by
  intro s addr v size rest h
  refine ⟨fun ha => ?write, fun ha => ?read⟩
  case write => rw [step_eq_host ha, hostAccess, hostRegWrite_undefined h]
  case read =>
    rw [step_eq_host ha, hostAccess, hostRegRead_undefined h]
    exact ⟨_, _, rfl⟩

end

section
/-! SUPPORT. Turns of the engine and of data-memory accesses (20_memory R63 to R65), and the blocks of a message command
one after the other (20_memory R58, R59). -/

namespace Sys2Proof.Machine

variable {s : State}

/-! ### Every turn answers a next state (20_memory R63) -/

theorem settleResult_next (t : State) : settleResult (.next t) = .next (settle t) := rfl

/-- The engine's turn with a command in progress is the whole command, then the races noted before. -/
theorem engineTurn_eq_exec {i : Instr} (hb : s.status.busy = true) (hd : decode s.pending = .ok i) :
    engineTurn s = settleResult (exec i s) := by
  simp only [engineTurn, engineStep, hb, hd, if_true]

/-- The engine's turn with an illegal word latched is the illegal ending, then the races noted before. -/
theorem engineTurn_eq_illegal {e : Illegal} (hb : s.status.busy = true) (hd : decode s.pending = .error e) :
    engineTurn s = .next (settle (s.ended .illegalCmd)) := by
  simp only [engineTurn, engineStep, hb, hd, if_true, illegalCommand, raise_eq, settleResult_next]

theorem engineTurn_answers (s : State) : ∃ t, engineTurn s = .next t := by
  cases hb : s.status.busy with
  | false => exact ⟨s, by simp [engineTurn, hb]⟩
  | true =>
    cases hd : decode s.pending with
    | ok i =>
      obtain ⟨t, ht, -⟩ := exec_ending i s
      exact ⟨settle t, by rw [engineTurn_eq_exec hb hd, ht, settleResult_next]⟩
    | error e => exact ⟨_, engineTurn_eq_illegal hb hd⟩

theorem step_safe (s : State) : s.stepsSafely := by
  unfold State.stepsSafely
  cases ha : s.agenda with
  | nil =>
    rw [step_eq_nil ha]
    exact engineTurn_answers s
  | cons turn rest =>
    rw [step_eq_cons ha]
    cases turn with
    | engine => exact engineTurn_answers _
    | host op => exact ⟨_, rfl⟩
    | reset => exact ⟨_, rfl⟩

/-! ### Data accesses that race (20_memory R64) -/

/-- Memory, the note of started commands and the count of free values are among the outputs. -/
theorem onlyOutputs_update {m : Memory} (h : s.mem.wf → m.wf) (u : List Footprint) (n : Nat) :
    OnlyOutputs s { s with mem := m, unsynced := u, freeCount := n } :=
  ⟨rfl, rfl, rfl, rfl, rfl, rfl, rfl, rfl, rfl, rfl, rfl, h⟩

/-- Noting an access leaves each written region as it was noted. -/
theorem outside_writes_touch {x : Nat} (h : ∀ f ∈ s.unsynced, regionHas f.writes x = false) (a : Nat) (k : AccessKind) :
    ∀ f ∈ (s.touch a k).unsynced, regionHas f.writes x = false := by
  intro f hf
  obtain ⟨g, hg, rfl⟩ := List.mem_map.1 hf
  exact h g hg

/-- What the races do that an access marks: outputs only, and bytes outside every noted written region stay. -/
theorem settle_touch_effect (a : Nat) (k : AccessKind) (s : State) :
    OnlyOutputs s (settle (s.touch a k)) ∧
      ∀ x, (∀ f ∈ s.unsynced, regionHas f.writes x = false) → (settle (s.touch a k)).mem.read x = s.mem.read x := by
  obtain ⟨hout, -, hmem⟩ := settle_effect (s.touch a k)
  exact ⟨(onlyOutputs_update id _ _).trans hout, fun x hx => hmem x (outside_writes_touch hx a k)⟩

/-- A host's data access, forbidden or not: it may answer, and besides changes outputs only. -/
theorem hostDataAccess_effect {op : HostOp} {a : Word} {b : Byte} (hop : op = .memWrite a b ∨ op = .memRead a)
    (s : State) : ∃ v, OnlyOutputs (s.answer v) (hostAccess op s) ∧
      ∀ x, x ≠ a.toNat → (∀ f ∈ s.unsynced, regionHas f.writes x = false) →
        (hostAccess op s).mem.read x = s.mem.read x := by
  rcases hop with rfl | rfl
  · have hwrite : OnlyOutputs s (s.setMem (s.mem.write a.toNat b)) :=
      onlyOutputs_update (fun hwf => Memory.wf_write hwf a.isLt b) _ _
    obtain ⟨hraces, hmem⟩ := settle_touch_effect a.toNat .write (s.setMem (s.mem.write a.toNat b))
    exact ⟨s.readData, hwrite.trans hraces, fun x hx hf => (hmem x hf).trans (Memory.read_write_ne _ _ hx)⟩
  · rw [hostAccess, hostMemRead]
    split_ifs
    · obtain ⟨hraces, hmem⟩ := settle_touch_effect a.toNat .read
        { s with readData := (Config.freeByte s.freeCount).setWidth 32, freeCount := s.freeCount + 1 }
      exact ⟨_, (onlyOutputs_update (s := s.answer ((Config.freeByte s.freeCount).setWidth 32)) id _ _).trans hraces,
        fun x _ hf => hmem x hf⟩
    · exact ⟨_, .refl _, fun _ _ _ => rfl⟩

/-! ### Blocks of a message command (42_block_cipher R148, R149) -/

theorem Memory.readList_writeList_self (m : Memory) (a : Nat) (bs : List Byte) :
    (m.writeList a bs).readList a bs.length = bs := by
  refine bytes_ext (by simp) fun i hi => ?_
  rw [Memory.length_readList] at hi
  rw [Memory.getD_readList, if_pos hi, Memory.read_writeList, if_pos (by omega), Nat.add_sub_cancel_left]

theorem blockWritten_outside (f : Block → Block) (src len dst k : Nat) (m : Memory) :
    sameOutside ⟨dst + 16 * k, 16⟩ m (blockWritten f src len dst k m) :=
  sameOutside_writeList m (r := ⟨dst + 16 * k, 16⟩) le_rfl

theorem messageAt_blockWritten (f : Block → Block) (src len dst k : Nat) (m : Memory) :
    messageAt (blockWritten f src len dst k m) (dst + 16 * k) 16 =
      wordsToBlock (f (blockToWords (bufferBlock m src len k) 0)) :=
  Memory.readList_writeList_self m _ _

/-- A message command whose buffers answer transforms all its blocks. -/
theorem transformBlocks_of_answers (f : Block → Block) {p : Platform} {src len dst n : Nat} (m : Memory)
    (hr : answers p ⟨src, len⟩ .read) (hw : answers p ⟨dst, 16 * n⟩ .write) :
    transformBlocks f p src len dst n m = .ok (blocksWritten f src len dst n m) :=
  transformBlocks_ok f p src len dst m n (fun i _ hi => hr (src + i) (Nat.le_add_right _ _) (Nat.add_lt_add_left hi _)) hw

theorem execEncm_of_answers (hc : encmCheck s = none) (hr : answers s.platform ⟨s.srcAddr.toNat, s.len.toNat⟩ .read)
    (hw : answers s.platform ⟨s.dstAddr.toNat, 16 * blockCount s.len.toNat⟩ .write) :
    execEncm s = .next (((s.setMem (blocksWritten (encWords s.subkeys) s.srcAddr.toNat s.len.toNat s.dstAddr.toNat
      (blockCount s.len.toNat) s.mem)).setOutLen (BitVec.ofNat 32 (16 * blockCount s.len.toNat))).ended .none) := by
  simp only [execEncm, hc, transformBlocks_of_answers _ s.mem hr hw, succeed_eq]

theorem execDecm_of_answers (hc : decmCheck s = none) (hr : answers s.platform ⟨s.srcAddr.toNat, s.len.toNat⟩ .read)
    (hw : answers s.platform ⟨s.dstAddr.toNat, 16 * (s.len.toNat / 16)⟩ .write) :
    execDecm s = .next (((s.setMem (blocksWritten (decWords s.subkeys) s.srcAddr.toNat s.len.toNat s.dstAddr.toNat
      (s.len.toNat / 16) s.mem)).setOutLen s.len).ended .none) := by
  simp only [execDecm, hc, transformBlocks_of_answers _ s.mem hr hw, succeed_eq]

end Sys2Proof.Machine
end

section
/-! SUPPORT. The statements of 20_memory, settled. -/

open Sys2Proof Sys2Proof.Machine

/-- Settles O11: every turn answers a next state, in whatever state it is taken. -/
theorem everyRunIsSafe : Obligations.EveryRunIsSafe := fun _ t _ => step_safe t

/-- Settles O32: an access that does not race leaves no mark, so nothing takes effect but the access. -/
theorem permittedDataAccess : Obligations.PermittedDataAccess := by
  intro s a b rest hrace
  refine ⟨fun hperm ha => ?write, fun hperm ha => ?read⟩
  case write =>
    rw [step_eq_host ha, hostAccess, hostMemWrite_permitted (s := { s with agenda := rest }) b hrace hperm]
    exact ⟨_, rfl, Memory.read_write_self _ _ _, sameOutside_writeList s.mem (r := ⟨a.toNat, 1⟩) (bs := [b]) le_rfl⟩
  case read =>
    rw [step_eq_host ha, hostAccess, hostMemRead_permitted (s := { s with agenda := rest }) hperm]
    rfl

/-- Settles O33: besides its own byte or answer, a data access has only the effect of the races it marks. -/
theorem raceReachesOutputsOnly : Obligations.RaceReachesOutputsOnly := by
  intro s t a b rest ha h
  obtain ⟨op, hop, ha⟩ : ∃ op, (op = .memWrite a b ∨ op = .memRead a) ∧ s.agenda = .host op :: rest := by
    rcases ha with ha | ha
    · exact ⟨_, .inl rfl, ha⟩
    · exact ⟨_, .inr rfl, ha⟩
  rw [step_eq_host ha] at h
  cases h
  obtain ⟨v, hout, hmem⟩ := hostDataAccess_effect hop { s with agenda := rest }
  exact ⟨hout.status, hout.keyAddr, hout.keyLen, hout.srcAddr, hout.dstAddr, hout.len, hout.offset, hout.pending, hmem⟩

/-- Settles O54: the memories are those the blocks leave one after the other. -/
theorem messageBlocksInOrder : Obligations.MessageBlocksInOrder := by
  intro s hkey hsrc hdst hr hw
  refine ⟨fun hlen => ?encm, fun haligned => ?decm⟩
  case encm =>
    have hc : encmCheck s = none := (encmCheck_none_iff s).2 ⟨hkey, hlen, hsrc, hdst⟩
    refine ⟨fun n => blocksWritten (encWords s.subkeys) s.srcAddr.toNat s.len.toNat s.dstAddr.toNat n s.mem, _,
      execEncm_of_answers hc hr hw, rfl, rfl, fun k _ => ⟨blockWritten_outside _ _ _ _ _ _, ?_⟩⟩
    rw [← blockToWords_padded]
    exact messageAt_blockWritten _ _ _ _ _ _
  case decm =>
    have hcount : (s.len.toNat + 15) / 16 = s.len.toNat / 16 := by omega
    rw [hcount] at hdst hw
    have hc : decmCheck s = none := (decmCheck_none_iff s).2 ⟨hkey, haligned, hsrc, by omega⟩
    refine ⟨fun n => blocksWritten (decWords s.subkeys) s.srcAddr.toNat s.len.toNat s.dstAddr.toNat n s.mem, _,
      execDecm_of_answers hc hr hw, rfl, rfl, fun k _ => ⟨blockWritten_outside _ _ _ _ _ _, ?_⟩⟩
    rw [← blockToWords_message]
    exact messageAt_blockWritten _ _ _ _ _ _

/-- Settles O4: the engine's turn is the decoded command; without a race the settling after it changes nothing. -/
theorem stepRunsDecodedCommand : Obligations.StepRunsDecodedCommand := by
  intro s i hb hnext hd
  have hstep : step s = settleResult (exec i { s with agenda := s.agenda.tail }) :=
    (step_eq_engine hnext).trans (engineTurn_eq_exec (s := { s with agenda := s.agenda.tail }) hb hd)
  refine ⟨hstep, fun t ht hrace => ?_⟩
  rw [hstep, ht, settleResult_next, settle_eq_self t hrace]

end

section
/-! SUPPORT. The decoder and the encoder are inverse on command words (30_encoding R83 to R85, 20_memory R54); the
engine's turn completes the command in progress, and a STATUS read of a busy block changes what the host has read alone
(30_encoding R88). -/

namespace Sys2Proof.Machine

/-! ### Command words (30_encoding R83 to R85) -/

@[simp] theorem decode_encode (i : Instr) : decode (encode i) = .ok i := by
  cases i <;> rfl

theorem decode_eq_ok_iff (w : Word) (i : Instr) : decode w = .ok i ↔ w = encode i :=
  ⟨eq_encode_of_decode, fun h => h ▸ decode_encode i⟩

/-- A word the decoder refuses has an unassigned OPC, or RSV is not 0. -/
theorem fields_of_decode_error {w : Word} {e : Illegal} (h : decode w = .error e) :
    wordOpc w = 0 ∨ 0x08 ≤ (wordOpc w).toNat ∨ wordRsv w ≠ 0 := by
  unfold decode at h
  split_ifs at h with hrsv
  case pos => exact .inr (.inr (by simpa using hrsv))
  case neg =>
    simp only [BitVec.toNat_eq, BitVec.reduceToNat] at *
    omega

/-- A command's word has an assigned OPC and RSV = 0. -/
theorem fields_encode (i : Instr) :
    ¬(wordOpc (encode i) = 0 ∨ 0x08 ≤ (wordOpc (encode i)).toNat ∨ wordRsv (encode i) ≠ 0) := by
  cases i <;> decide

theorem decode_eq_error_iff (w : Word) :
    (∃ e, decode w = .error e) ↔ wordOpc w = 0 ∨ 0x08 ≤ (wordOpc w).toNat ∨ wordRsv w ≠ 0 := by
  refine ⟨fun ⟨e, h⟩ => fields_of_decode_error h, fun hfields => ?_⟩
  cases hd : decode w with
  | error e => exact ⟨e, rfl⟩
  | ok i => exact absurd (eq_encode_of_decode hd ▸ hfields) (fields_encode i)

/-! ### Byte lanes (20_memory R54) -/

theorem append_busLanes (v : Word) :
    v.extractLsb' 24 8 ++ v.extractLsb' 16 8 ++ v.extractLsb' 8 8 ++ v.extractLsb' 0 8 = v := by
  have join (lo m n : Nat) : v.extractLsb' (lo + m) n ++ v.extractLsb' lo m = v.extractLsb' lo (n + m) :=
    BitVec.extractLsb'_append_extractLsb'_eq_extractLsb' rfl
  rw [join 16 8 8, join 8 8 16, join 0 8 24]
  exact BitVec.extractLsb'_eq_self

theorem decodeBytes_busLanes {v : Word} {i : Instr} (h : decode v = .ok i) (rest : List Byte) :
    decodeBytes (busLanes v ++ rest) = .ok (i, rest) := by
  simp only [busLanes, List.cons_append, List.nil_append, decodeBytes, append_busLanes, h]

/-! ### The engine completes its command (60_exceptions R191, R182) -/

variable {s t : State}

theorem Ending.agenda {i : Instr} (h : Ending s i t) : t.agenda = s.agenda := by cases h <;> rfl

/-- BUSY = 0 and DONE = 1, with the hosts' turns and the configuration as they were. -/
structure Completed (s t : State) : Prop where
  busy : t.status.busy = false
  done : t.status.done = true
  agenda : t.agenda = s.agenda
  platform : t.platform = s.platform

theorem Ending.completed {i : Instr} (h : Ending s i t) : Completed s t := ⟨h.busy, h.done, h.agenda, h.platform⟩

theorem Completed.settled (h : Completed s t) : Completed s (settle t) := by
  obtain ⟨hout, -, -⟩ := settle_effect t
  exact ⟨hout.status ▸ h.busy, hout.status ▸ h.done, hout.agenda.trans h.agenda, hout.platform.trans h.platform⟩

/-- The engine's turn ends the command in progress, legal or not. -/
theorem engineTurn_completes (hb : s.status.busy = true) : ∃ t, engineTurn s = .next t ∧ Completed s t := by
  cases hd : decode s.pending with
  | ok i =>
    obtain ⟨t, ht, hend⟩ := exec_ending i s
    exact ⟨settle t, by rw [engineTurn_eq_exec hb hd, ht, settleResult_next], hend.completed.settled⟩
  | error e => exact ⟨_, engineTurn_eq_illegal hb hd, Completed.settled ⟨rfl, rfl, rfl, rfl⟩⟩

/-! ### Script lines (30_encoding R87 to R89) -/

theorem expandLine_command (p : Platform) (i : Instr) :
    expandLine p (.command i) = [.host (.regWrite (baseAddr p) .word (encode i))] := by
  simp [expandLine, wrTurn, regAddr, regOffset]

theorem run_succ (k : Nat) (h : step s = .next t) : Host.Core.run core (k + 1) s = Host.Core.run core k t := by
  simp only [Host.Core.run, core, h]

/-- A STATUS read of a busy block. -/
theorem step_readStatus_busy {rest : List Turn} (hb : s.status.busy = true)
    (ha : s.agenda = rdTurn s.platform .status :: rest) :
    step s = .next { s with agenda := rest, readData := statusWord s.status } := by
  rw [step_regRead_answered (readIsFree_eq_false (.inl rfl)) ha]
  simp [regValue, hb]

/-- A STATUS read of an idle block ends the note of started commands (20_memory R65). -/
theorem step_readStatus_idle {rest : List Turn} (hb : s.status.busy = false)
    (ha : s.agenda = rdTurn s.platform .status :: rest) :
    step s = .next { s with agenda := rest, readData := statusWord s.status, unsynced := [] } := by
  rw [step_regRead_answered (readIsFree_eq_false (.inl rfl)) ha]
  simp [regValue, hb]

end Sys2Proof.Machine
end

section
/-! SUPPORT. The statements of 30_encoding, settled. -/

open Sys2Proof Sys2Proof.Machine

/-- Settles O2: the four lanes make up the word again, and a word that decodes is its command's. -/
theorem decodeEncodeAgree : Obligations.DecodeEncodeAgree :=
  ⟨fun i rest _ => decodeBytes_busLanes (decode_encode i) rest, decode_eq_ok_iff⟩

/-- Settles O3: the decoder tests these fields, and every command's word passes. -/
theorem illegalWordsAreTheRest : Obligations.IllegalWordsAreTheRest := decode_eq_error_iff

/-- Settles O13, by induction on the polls that show BUSY = 1: each of them leaves the block busy. -/
theorem waitSeesCompletion : Obligations.WaitSeesCompletion := by
  intro n
  induction n with
  | zero =>
    intro s rest hb ha
    obtain ⟨t, ht, hdone⟩ := engineTurn_completes (s := s.turnTaken) hb
    have hengine : step s = .next t := (step_eq_engine (.inr (by rw [ha]; rfl))).trans ht
    have hagenda : t.agenda = rdTurn t.platform .status :: rest := by
      rw [hdone.agenda, hdone.platform, State.turnTaken, ha]
      rfl
    refine ⟨_, (run_succ 1 hengine).trans (run_succ 0 (step_readStatus_idle hdone.busy hagenda)), rfl, hdone.busy,
      hdone.done, rfl, ?_, ?_, rfl⟩
    · exact (getLsbD_statusWord t.status 0).trans hdone.busy
    · exact (getLsbD_statusWord t.status 1).trans hdone.done
  | succ n ih =>
    intro s rest hb ha
    obtain ⟨t, hrun, hend⟩ := ih { s with
      agenda := expandLine s.platform (.wait n) ++ rest, readData := statusWord s.status } rest hb rfl
    exact ⟨t, (run_succ (n + 2) (step_readStatus_busy hb ha)).trans hrun, hend⟩

/-- Settles O1: each of them is the word of its command. -/
theorem commandWordsDecode : Obligations.CommandWordsDecode :=
  ⟨decode_encode .b2w, decode_encode .w2b, decode_encode .ksched, decode_encode .encb, decode_encode .decb,
    decode_encode .encm, decode_encode .decm⟩

/-- Settles O14: CMD stands at offset 0, and the write that the line is latches its command's word. -/
theorem mnemonicLineStartsCommand : Obligations.MnemonicLineStartsCommand := by
  refine fun i p => ⟨expandLine_command p i, ?_⟩
  rintro s rest rfl hb ha
  exact ⟨_, step_regWrite_idle hb ha, rfl, decode_encode i, rfl⟩

end

section
/-! SUPPORT. The codec's bytes (40_codec R100, R101), the blocks made of them (42_block_cipher R141), and how B2W and
W2B end under each of their conditions (40_codec R103, R104). -/

namespace Sys2Proof.Machine

/-! ### Bytes of a word (40_codec R100, R101) -/

theorem getElem?_wordToBytes (w : Word) {k : Nat} (hk : k < 4) :
    (wordToBytes w)[k]? = some (w.extractLsb' (8 * k) 8) := by
  interval_cases k <;> rfl

/-- The shifted bytes of R100 stand side by side, the first one lowest. -/
theorem bytesToWord_eq_append (buf : List Byte) (off : Nat) :
    bytesToWord buf off = byteAt buf (off + 3) ++ byteAt buf (off + 2) ++ byteAt buf (off + 1) ++ byteAt buf off := by
  have hor : (byteAt buf (off + 3) ++ byteAt buf (off + 2) ++ byteAt buf (off + 1) ++ byteAt buf off).setWidth 32 = _ :=
    BitVec.setWidth_append_append_append_eq_shiftLeft_setWidth_or
  rw [BitVec.setWidth_eq] at hor
  have reverse (w₀ w₁ w₂ w₃ : Word) : w₀ ||| w₁ ||| w₂ ||| w₃ = w₃ ||| w₂ ||| w₁ ||| w₀ := by ac_rfl
  exact (reverse _ _ _ _).trans hor.symm

theorem wordToBytes_append (b₀ b₁ b₂ b₃ : Byte) : wordToBytes (b₃ ++ b₂ ++ b₁ ++ b₀) = [b₀, b₁, b₂, b₃] := by
  have above {n : Nat} (hi : BitVec n) (lo : Byte) (start : Nat) :
      (hi ++ lo).extractLsb' (start + 8) 8 = hi.extractLsb' start 8 := by
    rw [BitVec.extractLsb'_append_eq_of_le (Nat.le_add_left _ _), Nat.add_sub_cancel]
  simp only [wordToBytes, List.cons.injEq, and_true]
  exact ⟨BitVec.extractLsb'_append_eq_right,
    (above _ b₀ 0).trans BitVec.extractLsb'_append_eq_right,
    (above _ b₀ 8).trans ((above _ b₁ 0).trans BitVec.extractLsb'_append_eq_right),
    (above _ b₀ 16).trans ((above _ b₁ 8).trans BitVec.extractLsb'_append_eq_left)⟩

/-- The bytes of the word at an offset are the four bytes of the buffer there. -/
theorem wordToBytes_bytesToWord (buf : List Byte) (off : Nat) :
    wordToBytes (bytesToWord buf off) = (List.range' off 4).map (byteAt buf) := by
  rw [bytesToWord_eq_append, wordToBytes_append]
  rfl

theorem extractLsb'_bytesToWord (buf : List Byte) (off : Nat) {k : Nat} (hk : k < 4) :
    (bytesToWord buf off).extractLsb' (8 * k) 8 = byteAt buf (off + k) := by
  have hbyte := getElem?_wordToBytes (bytesToWord buf off) hk
  rw [wordToBytes_bytesToWord] at hbyte
  simpa [hk] using hbyte.symm

theorem bytesToWord_wordToBytes (w : Word) : bytesToWord (wordToBytes w) 0 = w :=
  (bytesToWord_eq_append (wordToBytes w) 0).trans (append_busLanes w)

theorem map_byteAt_all (b : List Byte) : (List.range' 0 b.length).map (byteAt b) = b := by
  refine List.ext_getElem (by simp) fun i _ hi => ?_
  simp [byteAt, List.getElem?_eq_getElem hi]

/-- Zero bytes at a buffer's end are what a read beyond it gives anyway. -/
theorem byteAt_append_zeros (buf : List Byte) (n k : Nat) : byteAt (buf ++ List.replicate n 0) k = byteAt buf k := by
  rcases lt_or_ge k buf.length with hk | hk
  · exact List.getD_append _ _ _ _ hk
  · rw [byteAt, List.getD_append_right _ _ _ _ hk, byteAt, List.getD_eq_default buf 0 hk,
      List.getD_eq_getElem?_getD, List.getElem?_getD_replicate_default_eq]

theorem bytesToWord_append_zeros (buf : List Byte) (n off : Nat) :
    bytesToWord (buf ++ List.replicate n 0) off = bytesToWord buf off := by
  simp only [bytesToWord, byteAt_append_zeros]

/-! ### Words of a block (42_block_cipher R141) -/

/-- Word `q` of a block has bytes 4q to 4q+3. -/
theorem getElem?_wordsToBlock (x : Block) {k : Nat} (hk : k < 4) :
    (wordsToBlock x)[k]? = (wordToBytes x.a)[k]? ∧ (wordsToBlock x)[4 + k]? = (wordToBytes x.b)[k]? ∧
      (wordsToBlock x)[8 + k]? = (wordToBytes x.c)[k]? ∧ (wordsToBlock x)[12 + k]? = (wordToBytes x.d)[k]? := by
  interval_cases k <;> exact ⟨rfl, rfl, rfl, rfl⟩

theorem blockToWords_wordsToBlock (x : Block) : blockToWords (wordsToBlock x) 0 = x := by
  have hwords : blockToWords (wordsToBlock x) 0 = ⟨bytesToWord (wordToBytes x.a) 0, bytesToWord (wordToBytes x.b) 0,
    bytesToWord (wordToBytes x.c) 0, bytesToWord (wordToBytes x.d) 0⟩ := rfl
  simp only [hwords, bytesToWord_wordToBytes]

/-- The bytes of the block at an offset are the sixteen bytes of the buffer there. -/
theorem wordsToBlock_blockToWords (buf : List Byte) (p : Nat) :
    wordsToBlock (blockToWords buf p) = (List.range' p 16).map (byteAt buf) := by
  simp only [wordsToBlock, blockToWords, wordToBytes_bytesToWord]
  rfl

/-! ### B2W (40_codec R103) -/

variable {s : State}

theorem execB2w_of_check {e : ErrCode} (hc : b2wCheck s = some e) : execB2w s = .next (s.ended e) := by
  simp only [execB2w, hc, raise_eq]

theorem execB2w_of_answers (hc : b2wCheck s = none)
    (hr : ∀ i < 4, s.offset.toNat + i < s.len.toNat →
      memOk s.platform (s.srcAddr.toNat + (s.offset.toNat + i)) .read = true) :
    execB2w s = .next ((s.setWord
      (bytesToWord (s.mem.readList s.srcAddr.toNat s.len.toNat) s.offset.toNat)).ended .none) := by
  have hfetch := fetchBytes_ok s.platform s.mem s.srcAddr.toNat s.len.toNat 4 s.offset.toNat fun i hlo hhi hlen => by
    obtain ⟨j, rfl⟩ := Nat.exists_eq_add_of_le hlo
    exact hr j (Nat.lt_of_add_lt_add_left hhi) hlen
  simp only [execB2w, hc, hfetch, bytesToWord_fetched, succeed_eq]

theorem execB2w_of_denies (hc : b2wCheck s = none)
    (hr : ∃ i < 4, s.offset.toNat + i < s.len.toNat ∧
      memOk s.platform (s.srcAddr.toNat + (s.offset.toNat + i)) .read = false) :
    execB2w s = .next (s.ended .busError) := by
  obtain ⟨i, hi, hlen, hdeny⟩ := hr
  have hfetch := fetchBytes_error s.platform s.mem s.srcAddr.toNat s.len.toNat 4 s.offset.toNat
    ⟨s.offset.toNat + i, Nat.le_add_right _ _, Nat.add_lt_add_left hi _, hlen, hdeny⟩
  simp only [execB2w, hc, hfetch, raise_eq]

theorem b2wCheck_eq_addrRange (h : 2 ^ 32 < s.srcAddr.toNat + s.len.toNat) : b2wCheck s = some .addrRange :=
  if_pos ((passesEnd_iff _ _).2 h)

/-! ### W2B (40_codec R104) -/

theorem execW2b_of_check {e : ErrCode} (hc : w2bCheck s = some e) : execW2b s = .next (s.ended e) := by
  simp only [execW2b, hc, raise_eq]

theorem execW2b_of_answers (hc : w2bCheck s = none)
    (hw : answers s.platform ⟨s.dstAddr.toNat + s.offset.toNat, 4⟩ .write) :
    execW2b s = .next ((s.setMem
      (s.mem.writeList (s.dstAddr.toNat + s.offset.toNat) (wordToBytes s.word))).ended .none) := by
  simp only [execW2b, hc, storeBytes_ok s.platform (wordToBytes s.word) s.mem _ hw, succeed_eq]

theorem execW2b_of_denies (hc : w2bCheck s = none)
    (hw : denies s.platform ⟨s.dstAddr.toNat + s.offset.toNat, 4⟩ .write) :
    execW2b s = .next ((s.loseBytes (writtenRegion .w2b s)).ended .busError) := by
  simp only [execW2b, hc, storeBytes_error s.platform (wordToBytes s.word) s.mem _ hw, raiseBusError_eq]

theorem w2bCheck_eq_offsetRange (h : s.len.toNat < s.offset.toNat + 4) : w2bCheck s = some .offsetRange := if_pos h

theorem w2bCheck_eq_addrRange (hoff : s.offset.toNat + 4 ≤ s.len.toNat) (h : 2 ^ 32 < s.dstAddr.toNat + s.len.toNat) :
    w2bCheck s = some .addrRange := by
  rw [w2bCheck, if_neg (Nat.not_lt.2 hoff), if_pos ((passesEnd_iff _ _).2 h)]

/-- Each byte of a stored word is read back from its place. -/
theorem Memory.read_writeList_wordToBytes (m : Memory) (a : Nat) (w : Word) {k : Nat} (hk : k < 4) :
    (m.writeList a (wordToBytes w)).read (a + k) = w.extractLsb' (8 * k) 8 := by
  rw [Memory.read_writeList, if_pos ⟨Nat.le_add_right _ _, Nat.add_lt_add_left hk _⟩, Nat.add_sub_cancel_left,
    List.getD_eq_getElem?_getD, getElem?_wordToBytes w hk, Option.getD_some]

end Sys2Proof.Machine
end

section
/-! SUPPORT. The statements of 40_codec, settled. -/

open Sys2Proof Sys2Proof.Machine

/-- Settles O34: a word is its four bytes side by side, and padding with zeros changes no byte read. -/
theorem codecInverseLaws : Obligations.CodecInverseLaws := by
  refine ⟨bytesToWord_wordToBytes, fun b hb => ?_, fun buf off _ => (bytesToWord_append_zeros buf _ off).symm⟩
  rw [wordToBytes_bytesToWord, ← hb, map_byteAt_all]

/-- Settles O35: a block is four words, each four bytes side by side. -/
theorem wordAndBlockByteLayout : Obligations.WordAndBlockByteLayout := by
  refine ⟨fun w k => getElem?_wordToBytes w, fun buf off k => extractLsb'_bytesToWord buf off,
    fun x => ⟨length_wordsToBlock x, fun k hk => ?layout, blockToWords_wordsToBlock x⟩, fun b hb => ?inverse,
    fun buf p k hk => ⟨extractLsb'_bytesToWord buf p hk, extractLsb'_bytesToWord buf _ hk,
      extractLsb'_bytesToWord buf _ hk, extractLsb'_bytesToWord buf _ hk⟩⟩
  case layout => simpa only [getElem?_wordToBytes _ hk] using getElem?_wordsToBlock x hk
  case inverse => rw [wordsToBlock_blockToWords, ← hb, map_byteAt_all]

/-- Settles O36: the bytes B2W fetches make up the word at OFFSET. -/
theorem b2wReadsWord : Obligations.B2wReadsWord :=
  fun s hin hr => execB2w_of_answers ((b2wCheck_none_iff s).2 hin) hr

/-- Settles O37: ADDR_RANGE is B2W's only check, and BUS_ERROR its only other error. -/
theorem b2wErrors : Obligations.B2wErrors :=
  fun s => ⟨fun hout => execB2w_of_check (b2wCheck_eq_addrRange hout),
    fun hin hr => execB2w_of_denies ((b2wCheck_none_iff s).2 hin) hr⟩

/-- Settles O38: the memory is the one with WORD's four bytes written. -/
theorem w2bWritesBytes : Obligations.W2bWritesBytes :=
  fun s hoff hin hw => ⟨_, execW2b_of_answers ((w2bCheck_none_iff s).2 ⟨hoff, hin⟩) hw,
    fun _ hi => Memory.read_writeList_wordToBytes s.mem _ s.word hi,
    sameOutside_writeList s.mem (r := writtenRegion .w2b s) le_rfl⟩

/-- Settles O39: the two checks in order, then the store that does not complete, which frees the four bytes alone. -/
theorem w2bErrors : Obligations.W2bErrors :=
  fun s => ⟨fun hoff => execW2b_of_check (w2bCheck_eq_offsetRange hoff),
    fun hoff hout => execW2b_of_check (w2bCheck_eq_addrRange hoff hout),
    fun hoff hin hw => ⟨_, _, execW2b_of_denies ((w2bCheck_none_iff s).2 ⟨hoff, hin⟩) hw,
      State.loseBytes_sameOutside s _⟩⟩

end

section
/-! SUPPORT. The words of a key (41_key_schedule R121, R122), the mixing loop counted by its iterations (R123), and how
KSCHED ends under each of its conditions (R125). -/

namespace Sys2Proof.Machine

/-! ### Key words (41_key_schedule R121, R122) -/

/-- A word with a byte appended below it: (w << 8) + b (R122). -/
def appendByte (w : Word) (b : Byte) : Word := (w <<< 8) + b.setWidth 32

/-- The key bytes that go into word `j`, at most four. -/
def bytesOfKeyWord (K : List Byte) (j : Nat) : List Byte := (K.drop (4 * j)).take 4

/-- Word `j` of a key, from its own bytes alone. -/
def keyWord (K : List Byte) (j : Nat) : Word := (bytesOfKeyWord K j).foldl appendByte 0

theorem packByte_eq_set (i : Nat) (b : Byte) (L : List Word) :
    packByte i b L = L.set (i / 4) (appendByte (L.getD (i / 4) 0) b) := rfl

@[simp] theorem length_keyWords (K : List Byte) : (keyWords K).length = keyWordCount K.length := by simp [keyWords]

/-- A byte put behind a key goes into the word its number names, and into no other. -/
theorem keyWord_append_singleton (K : List Byte) (b : Byte) (j : Nat) :
    keyWord (K ++ [b]) j = if j = K.length / 4 then appendByte (keyWord K j) b else keyWord K j := by
  unfold keyWord bytesOfKeyWord
  split_ifs with hj
  · have hroom : (K.drop (4 * j)).length < 4 := by rw [List.length_drop]; omega
    have hroom' : (K.drop (4 * j) ++ [b]).length ≤ 4 := by rw [List.length_append]; exact hroom
    rw [List.drop_append_of_le_length (by omega), List.take_of_length_le hroom', List.take_of_length_le hroom.le,
      List.foldl_concat]
  · rcases Nat.lt_or_gt_of_ne hj with hlt | hgt
    · rw [List.drop_append_of_le_length (by omega), List.take_append_of_le_length (by simp; omega)]
    · rw [List.drop_of_length_le (by simp; omega), List.drop_of_length_le (by omega)]

/-- Packing a key into enough zero words leaves each word as its own bytes make it. -/
theorem getD_packFrom_zeros (c : Nat) (K : List Byte) (hc : K.length ≤ 4 * c) (j : Nat) :
    (packFrom 0 K (List.replicate c 0)).getD j 0 = keyWord K j := by
  induction K using List.reverseRecOn generalizing j with
  | nil => simp [packFrom, keyWord, bytesOfKeyWord, List.getD_eq_getElem?_getD]
  | append_singleton K b ih =>
    rw [List.length_append, List.length_singleton] at hc
    have hset : K.length / 4 < (packFrom 0 K (List.replicate c 0)).length := by simp; omega
    rw [packFrom_append, Nat.zero_add, packByte_eq_set, keyWord_append_singleton, ih (by omega),
      List.getD_eq_getElem?_getD]
    split_ifs with hj
    · rw [hj, List.getElem?_set_self hset, Option.getD_some]
    · rw [List.getElem?_set_ne (Ne.symm hj), ← List.getD_eq_getElem?_getD, ih (by omega)]

theorem getD_keyWords (K : List Byte) (j : Nat) : (keyWords K).getD j 0 = keyWord K j :=
  getD_packFrom_zeros _ K (by unfold keyWordCount; omega) j

/-- Keys of as many words, word by word the same, have the same key words. -/
theorem keyWords_congr {K K' : List Byte} (hlen : keyWordCount K.length = keyWordCount K'.length)
    (hword : ∀ j, keyWord K j = keyWord K' j) : keyWords K = keyWords K' := by
  refine List.ext_getElem (by simpa using hlen) fun j hj hj' => ?_
  rw [← List.getD_eq_getElem _ 0 hj, ← List.getD_eq_getElem _ 0 hj', getD_keyWords, getD_keyWords, hword]

/-! ### A full word (41_key_schedule R122) -/

/-- Appending a byte to a word is writing it to the right of the word's bits. -/
theorem appendByte_setWidth {n : Nat} (hi : BitVec n) (b : Byte) :
    appendByte (hi.setWidth 32) b = (hi ++ b).setWidth 32 := by
  have hcat : (hi ++ b).toNat = hi.toNat * 2 ^ 8 + b.toNat := by
    rw [BitVec.toNat_append, ← Nat.shiftLeft_add_eq_or_of_lt b.isLt, Nat.shiftLeft_eq]
  apply BitVec.eq_of_toNat_eq
  simp only [appendByte, BitVec.toNat_add, BitVec.toNat_shiftLeft, BitVec.toNat_setWidth, hcat, Nat.shiftLeft_eq]
  omega

theorem foldl_appendByte_four (b₀ b₁ b₂ b₃ : Byte) :
    [b₀, b₁, b₂, b₃].foldl appendByte 0 = b₀ ++ b₁ ++ b₂ ++ b₃ := by
  have hfirst : appendByte 0 b₀ = b₀.setWidth 32 := by simp [appendByte]
  simp only [List.foldl_cons, List.foldl_nil, hfirst, appendByte_setWidth]
  exact BitVec.setWidth_eq _

theorem bytesOfKeyWord_full {K : List Byte} {j : Nat} (h : 4 * j + 4 ≤ K.length) :
    bytesOfKeyWord K j = [K.getD (4 * j) 0, K.getD (4 * j + 1) 0, K.getD (4 * j + 2) 0, K.getD (4 * j + 3) 0] := by
  refine bytes_ext (by simp [bytesOfKeyWord]; omega) fun i hi => ?_
  have hi4 : i < 4 := by simp [bytesOfKeyWord] at hi; omega
  have hbyte : (bytesOfKeyWord K j).getD i 0 = K.getD (4 * j + i) 0 := by
    simp [bytesOfKeyWord, List.getD_eq_getElem?_getD, hi4]
  rw [hbyte]
  interval_cases i <;> rfl

/-! ### Leading zeros of the last word (41_key_schedule R125) -/

theorem foldl_appendByte_zeros (z : Nat) : (List.replicate z (0 : Byte)).foldl appendByte 0 = 0 := by
  induction z with
  | zero => rfl
  | succ z ih => exact ih

/-- Zero bytes in front of a key that stays within one word change no word. -/
theorem keyWord_zeros_append {R : List Byte} {z : Nat} (h : z + R.length ≤ 4) (j : Nat) :
    keyWord (List.replicate z 0 ++ R) j = keyWord R j := by
  unfold keyWord bytesOfKeyWord
  cases j with
  | zero =>
    simp only [Nat.mul_zero, List.drop_zero]
    rw [List.take_of_length_le (by simpa using h), List.take_of_length_le (by omega), List.foldl_append,
      foldl_appendByte_zeros]
  | succ j => rw [List.drop_of_length_le (by simp; omega), List.drop_of_length_le (by omega)]

/-- Behind whole words the words of the rest follow. -/
theorem keyWord_append {P : List Byte} {q : Nat} (hP : P.length = 4 * q) (X : List Byte) (j : Nat) :
    keyWord (P ++ X) j = if j < q then keyWord P j else keyWord X (j - q) := by
  unfold keyWord bytesOfKeyWord
  split_ifs with hj
  · rw [List.drop_append_of_le_length (by omega), List.take_append_of_le_length (by simp; omega)]
  · rw [List.drop_append, List.drop_of_length_le (by omega), List.nil_append, hP, Nat.mul_sub]

/-- Zero bytes that lead the last word, and so add no word, change no key word. -/
theorem keyWords_leading_zeros {P R : List Byte} {z : Nat} (hP : P.length % 4 = 0) (hR : z + R.length ≤ 4)
    (hcount : keyWordCount (P.length + (z + R.length)) = keyWordCount (P.length + R.length)) :
    keyWords (P ++ List.replicate z 0 ++ R) = keyWords (P ++ R) := by
  obtain ⟨q, hq⟩ := Nat.dvd_of_mod_eq_zero hP
  refine keyWords_congr (by simpa [Nat.add_assoc] using hcount) fun j => ?_
  rw [List.append_assoc, keyWord_append hq, keyWord_append hq, keyWord_zeros_append hR]

/-! ### The mixing loop (41_key_schedule R123) -/

/-- What the mixing loop computes with: the table, the key words and the accumulators, without the indices. -/
def Mix.values (m : Mix) : List Word × List Word × Word × Word := (m.S.toList, m.L, m.A, m.B)

/-- Iteration `s` of the mixing loop over `c` key words, its indices counted from `s`: i = s mod 44, j = s mod c. -/
def mixIteration (c : Nat) (x : List Word × List Word × Word × Word) (s : Nat) :
    List Word × List Word × Word × Word :=
  let i := s % 44
  let j := s % c
  let A := rotl (x.1.getD i 0 + x.2.2.1 + x.2.2.2) 3
  let B := rotl (x.2.1.getD j 0 + A + x.2.2.2) (((A + x.2.2.2).toNat % 32 : Nat) : Int)
  (x.1.set i A, x.2.1.set j B, A, B)

variable {m : Mix} {c n : Nat}

/-- The mixing loop is at iteration `n` over `c` key words: its indices are those of the iteration. -/
structure Mix.AtIteration (m : Mix) (c n : Nat) : Prop where
  length_L : m.L.length = c
  i_eq : m.i.val = n % 44
  j_eq : m.j = n % c

theorem Mix.AtIteration.step (h : m.AtIteration c n) : (mixStep m).AtIteration c (n + 1) where
  length_L := by simp [mixStep, mixNext, h.length_L]
  i_eq := by
    have hi : (mixStep m).i.val = (m.i.val + 1) % 44 := Fin.val_add m.i 1
    rw [hi, h.i_eq, Nat.mod_add_mod]
  j_eq := by
    have hj : (mixStep m).j = (m.j + 1) % m.L.length := rfl
    rw [hj, h.length_L, h.j_eq, Nat.mod_add_mod]

theorem Mix.AtIteration.mixLoop (h : m.AtIteration c 0) : ∀ n, (mixLoop n m).AtIteration c n
  | 0 => h
  | n + 1 => mixLoop_succ n m ▸ (h.mixLoop n).step

theorem values_mixStep (h : m.AtIteration c n) : (mixStep m).values = mixIteration c m.values n := by
  have hS : m.S.toList.getD (n % 44) 0 = m.S[m.i] := by
    rw [getD_subkeys, ← h.i_eq, subkeyAt, dif_pos m.i.isLt]
    rfl
  simp only [Mix.values, mixIteration, hS, mixStep, mixNext, mixA, mixB, h.j_eq, h.i_eq, Vector.toList_set]

theorem values_mixLoop (h : m.AtIteration c 0) (n : Nat) :
    (mixLoop n m).values = (List.range n).foldl (mixIteration c) m.values := by
  induction n with
  | zero => rfl
  | succ n ih => rw [mixLoop_succ, values_mixStep (h.mixLoop n), ih, List.range_succ, List.foldl_concat]

/-! ### KSCHED (41_key_schedule R125) -/

variable {s : State}

theorem execKsched_of_check {e : ErrCode} (hc : kschedCheck s = some e) :
    execKsched s = .next (((s.setKeyValid false).loseSubkeys).ended e) := by
  have hc' : kschedCheck (s.setKeyValid false) = some e := hc
  simp only [execKsched, kschedBody, hc', kschedFail, raise_eq]

theorem execKsched_of_answers (hc : kschedCheck s = none)
    (hr : answers s.platform ⟨s.keyAddr.toNat, s.keyLen.toNat⟩ .read) :
    execKsched s = .next (((s.setSubkeys
      (keySchedule (s.mem.readList s.keyAddr.toNat s.keyLen.toNat))).setKeyValid true).ended .none) := by
  have hc' : kschedCheck (s.setKeyValid false) = none := hc
  have hfetch := fetchBytes_ok s.platform s.mem s.keyAddr.toNat s.keyLen.toNat s.keyLen.toNat 0
    fun i _ _ hlen => hr _ (Nat.le_add_right _ _) (Nat.add_lt_add_left hlen _)
  rw [bufferBytes_all] at hfetch
  simp only [execKsched, kschedBody, hc', State.setKeyValid_platform, State.setKeyValid_mem, State.setKeyValid_keyAddr,
    State.setKeyValid_keyLen, hfetch, succeed_eq]
  rfl

theorem execKsched_of_denies (hc : kschedCheck s = none)
    (hr : denies s.platform ⟨s.keyAddr.toNat, s.keyLen.toNat⟩ .read) :
    execKsched s = .next (((s.setKeyValid false).loseSubkeys).ended .busError) := by
  obtain ⟨a, hlo, hhi, hdeny⟩ := hr
  obtain ⟨i, rfl⟩ := Nat.exists_eq_add_of_le hlo
  have hi : i < s.keyLen.toNat := Nat.lt_of_add_lt_add_left hhi
  have hc' : kschedCheck (s.setKeyValid false) = none := hc
  have hfetch := fetchBytes_error s.platform s.mem s.keyAddr.toNat s.keyLen.toNat s.keyLen.toNat 0
    ⟨i, Nat.zero_le _, by omega, hi, hdeny⟩
  simp only [execKsched, kschedBody, hc', State.setKeyValid_platform, State.setKeyValid_mem, State.setKeyValid_keyAddr,
    State.setKeyValid_keyLen, hfetch, kschedFail, raise_eq]

theorem kschedCheck_eq_keyTooLong (h : s.platform.keyMaxBytes.toNat < s.keyLen.toNat) :
    kschedCheck s = some .keyTooLong := if_pos h

theorem kschedCheck_eq_addrRange (hlen : s.keyLen.toNat ≤ s.platform.keyMaxBytes.toNat)
    (h : 2 ^ 32 < s.keyAddr.toNat + s.keyLen.toNat) : kschedCheck s = some .addrRange := by
  rw [kschedCheck, if_neg (Nat.not_lt.2 hlen), if_pos ((passesEnd_iff _ _).2 h)]

end Sys2Proof.Machine
end

section
/-! SUPPORT. The statements of 41_key_schedule, settled. -/

open Sys2Proof Sys2Proof.Machine

/-- Settles O41: each word is made of its own bytes, and four appended bytes stand side by side. -/
theorem keyWordsPackBigEndian : Obligations.KeyWordsPackBigEndian := by
  refine fun K => ⟨length_keyWords K, getD_keyWords K, fun j hj => ?full⟩
  case full => rw [getD_keyWords, keyWord, bytesOfKeyWord_full hj, foldl_appendByte_four]

/-- Settles O42: before iteration s the loop's indices are s mod 44 and s mod c. -/
theorem keyScheduleFollowsMixingLoop : Obligations.KeyScheduleFollowsMixingLoop := by
  intro K
  have hstart : Mix.AtIteration ⟨initialSubkeys, keyWords K, 0, 0, 0, 0⟩ (keyWordCount K.length) 0 :=
    ⟨length_keyWords K, rfl, (Nat.zero_mod _).symm⟩
  have hloop := values_mixLoop hstart (mixCount (keyWordCount K.length))
  rw [keySchedule, length_keyWords]
  exact congrArg Prod.fst hloop

/-- Settles O43: the schedule depends on the key words alone, and leading zeros of the last word change none. -/
theorem leadingZeroKeysAgree : Obligations.LeadingZeroKeysAgree := by
  refine ⟨fun _ _ => keySchedule_congr, fun P R z hP hR hz => ?leading, fun n hn => ?zeros⟩
  case leading =>
    have hlen : 0 < R.length := List.length_pos_iff.2 hR
    have hwords := keyWords_leading_zeros hP hz (by unfold keyWordCount; omega)
    exact ⟨hwords, keySchedule_congr hwords⟩
  case zeros =>
    have hwords := keyWords_leading_zeros (P := []) (R := []) (z := n) rfl hn (by simp [keyWordCount]; omega)
    simpa using keySchedule_congr hwords

/-- Settles O44: KSCHED fetches the key's bytes, all of them. -/
theorem kschedLoadsSchedule : Obligations.KschedLoadsSchedule :=
  fun s hlen hin hr => execKsched_of_answers ((kschedCheck_none_iff s).2 ⟨hlen, hin⟩) hr

/-- Settles O45: the two checks in order, then the fetch that does not complete; each loses S and KEY_VALID alone. -/
theorem kschedErrors : Obligations.KschedErrors :=
  fun s => ⟨fun hlong => ⟨_, _, execKsched_of_check (kschedCheck_eq_keyTooLong hlong)⟩,
    fun hlen hout => ⟨_, _, execKsched_of_check (kschedCheck_eq_addrRange hlen hout)⟩,
    fun hlen hin hr => ⟨_, _, execKsched_of_denies ((kschedCheck_none_iff s).2 ⟨hlen, hin⟩) hr⟩⟩

/-- Settles O40: the table's words are the recurrence's, the last one computed. -/
theorem initialTable : Obligations.InitialTable := by
  refine ⟨initialSubkeys_get 0 (by decide), fun i h => ?recurrence,
    (initialSubkeys_get 43 (by decide)).trans (by decide)⟩
  case recurrence =>
    rw [initialSubkeys_get i (by omega), initialSubkeys_get (i + 1) h]
    rfl

end

section
/-! SUPPORT. The rounds of the cipher as the rules write them (42_block_cipher R142, R143) and that they undo each other
(R144); how the block and message commands end under each of their conditions (R146 to R149); what two message commands
that undo each other leave (R150). -/

namespace Sys2Proof.Machine

/-! ### The rounds as R142 writes them -/

/-- The words (A, B, C, D) of a block. -/
def Block.words (x : Block) : Word × Word × Word × Word := (x.a, x.b, x.c, x.d)

/-- Round `j` on four words, with the formulas of R142 written out. -/
def wordsRound (S : Subkeys) (x : Word × Word × Word × Word) (j : Nat) : Word × Word × Word × Word :=
  let t := rotl (x.2.1 * (2 * x.2.1 + 1)) 5
  let u := rotl (x.2.2.2 * (2 * x.2.2.2 + 1)) 5
  (x.2.1, rotl (x.2.2.1 ^^^ u) ((t.toNat % 32 : Nat) : Int) + S.toList.getD (2 * j + 1) 0,
    x.2.2.2, rotl (x.1 ^^^ t) ((u.toNat % 32 : Nat) : Int) + S.toList.getD (2 * j) 0)

theorem words_encRound (S : Subkeys) (j : Nat) (x : Block) : (encRound S j x).words = wordsRound S x.words j := by
  simp only [wordsRound, getD_subkeys]
  rfl

theorem words_encRounds (S : Subkeys) (n : Nat) (x : Block) :
    (encRounds S n x).words = (List.range' 1 n).foldl (wordsRound S) x.words := by
  induction n with
  | zero => rfl
  | succ n ih => rw [encRounds, words_encRound, ih, List.range'_1_concat, List.foldl_concat, Nat.add_comm 1 n]

theorem encEnd_eq_words (S : Subkeys) (x : Block) :
    encEnd S x = ⟨x.words.1 + S[42], x.words.2.1, x.words.2.2.1 + S[43], x.words.2.2.2⟩ := rfl

/-! ### Decryption and encryption undo each other (R144) -/

/-- Subtraction undoes the subkey's addition, then rotr the rotation, then the second xor the first. -/
@[simp] theorem decRound_encRound (S : Subkeys) (j : Nat) (x : Block) : decRound S j (encRound S j x) = x := by
  simp only [decRound, decUnmix, encRound, BitVec.add_sub_cancel, rotr_rotl,
    BitVec.xor_assoc, BitVec.xor_self, BitVec.xor_zero]

@[simp] theorem encRound_decRound (S : Subkeys) (j : Nat) (x : Block) : encRound S j (decRound S j x) = x := by
  simp only [decRound, decUnmix, encRound, rotl_rotr, BitVec.sub_add_cancel,
    BitVec.xor_assoc, BitVec.xor_self, BitVec.xor_zero]

theorem decRounds_encRounds (S : Subkeys) (n : Nat) (x : Block) : decRounds S n (encRounds S n x) = x := by
  induction n with
  | zero => rfl
  | succ n ih => rw [encRounds, decRounds, decRound_encRound, ih]

theorem encRounds_decRounds (S : Subkeys) (n : Nat) (x : Block) : encRounds S n (decRounds S n x) = x := by
  induction n generalizing x with
  | zero => rfl
  | succ n ih => rw [decRounds, encRounds, ih, encRound_decRound]

@[simp] theorem decWords_encWords (S : Subkeys) (x : Block) : decWords S (encWords S x) = x := by
  rw [decWords, encWords, decStart_encEnd, decRounds_encRounds, decEnd_encStart]

@[simp] theorem encWords_decWords (S : Subkeys) (x : Block) : encWords S (decWords S x) = x := by
  rw [decWords, encWords, encStart_decEnd, encRounds_decRounds, encEnd_decStart]

/-! ### Endings with a key (R146 to R149, 60_exceptions R191) -/

variable {s t : State} {e : ErrCode}

/-- With a key loaded, the status a command ends in is written out. -/
theorem eq_next_of_ended {r : Result} (h : r = .next (s.ended e)) (hkey : s.status.keyValid = true) :
    r = .next { s with status := ⟨false, true, true, e⟩ } := by
  rw [h, State.ended, hkey]

theorem execEncb_of_key (hkey : s.status.keyValid = true) :
    execEncb s = .next ((s.setBlk (encWords s.subkeys s.blk)).ended .none) := by
  simp only [execEncb, encbCheck, hkey, if_true, succeed_eq]

theorem execDecb_of_key (hkey : s.status.keyValid = true) :
    execDecb s = .next ((s.setBlk (decWords s.subkeys s.blk)).ended .none) := by
  simp only [execDecb, decbCheck, hkey, if_true, succeed_eq]

theorem execEncm_of_check (hc : encmCheck s = some e) : execEncm s = .next (s.ended e) := by
  simp only [execEncm, hc, raise_eq]

theorem execDecm_of_check (hc : decmCheck s = some e) : execDecm s = .next (s.ended e) := by
  simp only [execDecm, hc, raise_eq]

theorem encmCheck_eq_invalidLength (hkey : s.status.keyValid = true) (h : 0xFFFFFFF0 < s.len.toNat) :
    encmCheck s = some .invalidLength := by
  simp only [encmCheck, hkey, Bool.true_eq_false, if_false, if_pos h]

theorem decmCheck_eq_invalidLength (hkey : s.status.keyValid = true) (h : s.len.toNat % 16 ≠ 0) :
    decmCheck s = some .invalidLength := by
  simp only [decmCheck, hkey, Bool.true_eq_false, if_false, if_pos h]

/-- The two range checks that end a message command's checks answer ADDR_RANGE where either buffer passes 2^32. -/
theorem rangeChecks_eq_addrRange {src len dst size : Nat} (h : 2 ^ 32 < src + len ∨ 2 ^ 32 < dst + size) :
    (if passesEnd src len then some ErrCode.addrRange
      else if passesEnd dst size then some ErrCode.addrRange else none) = some .addrRange := by
  rw [← passesEnd_iff, ← passesEnd_iff] at h
  rcases h with h | h <;> simp [h]

theorem encmCheck_eq_addrRange (hkey : s.status.keyValid = true) (hlen : s.len.toNat ≤ 0xFFFFFFF0)
    (h : 2 ^ 32 < s.srcAddr.toNat + s.len.toNat ∨ 2 ^ 32 < s.dstAddr.toNat + 16 * blockCount s.len.toNat) :
    encmCheck s = some .addrRange := by
  simp only [encmCheck, hkey, Bool.true_eq_false, if_false, if_neg (Nat.not_lt.2 hlen), rangeChecks_eq_addrRange h]

theorem decmCheck_eq_addrRange (hkey : s.status.keyValid = true) (hlen : s.len.toNat % 16 = 0)
    (h : 2 ^ 32 < s.srcAddr.toNat + s.len.toNat ∨ 2 ^ 32 < s.dstAddr.toNat + s.len.toNat) :
    decmCheck s = some .addrRange := by
  simp only [decmCheck, hkey, Bool.true_eq_false, if_false, if_neg (not_not.2 hlen), rangeChecks_eq_addrRange h]

/-- A message command one of whose buffers does not answer meets a BUS_ERROR; its blocks reach every source byte. -/
theorem transformBlocks_of_denies (f : Block → Block) {p : Platform} {src len dst n : Nat} (m : Memory)
    (hn : len ≤ 16 * n) (h : denies p ⟨src, len⟩ .read ∨ denies p ⟨dst, 16 * n⟩ .write) :
    transformBlocks f p src len dst n m = .error .busError := by
  refine transformBlocks_error f p src len dst m n (h.imp_left ?_)
  rintro ⟨a, hlo, hhi, hdeny⟩
  obtain ⟨i, rfl⟩ := Nat.exists_eq_add_of_le hlo
  have hi : i < len := Nat.lt_of_add_lt_add_left hhi
  exact ⟨i, by omega, hi, hdeny⟩

theorem le_mul_blockCount (len : Nat) : len ≤ 16 * blockCount len := by unfold blockCount; omega

/-- OUT_LEN holds the padded length of every message that ENCM takes (R148). -/
theorem toNat_encmOutLen {len : Nat} (h : len ≤ 0xFFFFFFF0) :
    (BitVec.ofNat 32 (16 * blockCount len)).toNat = 16 * blockCount len := by
  rw [BitVec.toNat_ofNat, Nat.mod_eq_of_lt (by unfold blockCount; omega)]

theorem execEncm_of_denies (hc : encmCheck s = none)
    (h : denies s.platform ⟨s.srcAddr.toNat, s.len.toNat⟩ .read ∨
      denies s.platform ⟨s.dstAddr.toNat, 16 * blockCount s.len.toNat⟩ .write) :
    execEncm s = .next ((s.loseBytes (writtenRegion .encm s)).ended .busError) := by
  simp only [execEncm, hc, transformBlocks_of_denies _ s.mem (le_mul_blockCount _) h, raiseBusError_eq]

theorem execDecm_of_denies (hc : decmCheck s = none)
    (h : denies s.platform ⟨s.srcAddr.toNat, s.len.toNat⟩ .read ∨
      denies s.platform ⟨s.dstAddr.toNat, s.len.toNat⟩ .write) :
    execDecm s = .next ((s.loseBytes (writtenRegion .decm s)).ended .busError) := by
  obtain ⟨-, haligned, -, -⟩ := (decmCheck_none_iff s).1 hc
  have hblocks : 16 * (s.len.toNat / 16) = s.len.toNat := by omega
  have hdeny : denies s.platform ⟨s.srcAddr.toNat, s.len.toNat⟩ .read ∨
      denies s.platform ⟨s.dstAddr.toNat, 16 * (s.len.toNat / 16)⟩ .write := by rwa [hblocks]
  simp only [execDecm, hc, transformBlocks_of_denies _ s.mem hblocks.ge hdeny, raiseBusError_eq]

/-- DECM of `n` whole blocks within its bounds whose buffers answer. -/
theorem execDecm_of_blocks {n : Nat} (hkey : s.status.keyValid = true) (hlen : s.len.toNat = 16 * n)
    (hsrc : s.srcAddr.toNat + 16 * n ≤ 2 ^ 32) (hdst : s.dstAddr.toNat + 16 * n ≤ 2 ^ 32)
    (hr : answers s.platform ⟨s.srcAddr.toNat, 16 * n⟩ .read)
    (hw : answers s.platform ⟨s.dstAddr.toNat, 16 * n⟩ .write) :
    execDecm s = .next (((s.setMem (blocksWritten (decWords s.subkeys) s.srcAddr.toNat (16 * n) s.dstAddr.toNat n
      s.mem)).setOutLen s.len).ended .none) := by
  have hn : s.len.toNat / 16 = n := by omega
  have hc : decmCheck s = none := (decmCheck_none_iff s).2 (by rw [hlen]; exact ⟨hkey, by omega, hsrc, hdst⟩)
  have hdec := execDecm_of_answers hc (hlen.symm ▸ hr) (hn.symm ▸ hw)
  rwa [hlen, Nat.mul_div_cancel_left n (by decide)] at hdec

/-- ENCM of `n` whole blocks within its bounds whose buffers answer. -/
theorem execEncm_of_blocks {n : Nat} (hkey : s.status.keyValid = true) (hlen : s.len.toNat = 16 * n)
    (hsrc : s.srcAddr.toNat + 16 * n ≤ 2 ^ 32) (hdst : s.dstAddr.toNat + 16 * n ≤ 2 ^ 32)
    (hr : answers s.platform ⟨s.srcAddr.toNat, 16 * n⟩ .read)
    (hw : answers s.platform ⟨s.dstAddr.toNat, 16 * n⟩ .write) :
    execEncm s = .next (((s.setMem (blocksWritten (encWords s.subkeys) s.srcAddr.toNat (16 * n) s.dstAddr.toNat n
      s.mem)).setOutLen (BitVec.ofNat 32 (16 * n))).ended .none) := by
  have hn : blockCount s.len.toNat = n := by unfold blockCount; omega
  have hc : encmCheck s = none :=
    (encmCheck_none_iff s).2 (by rw [hn, hlen]; exact ⟨hkey, by omega, hsrc, hdst⟩)
  have henc := execEncm_of_answers hc (hlen.symm ▸ hr) (hn.symm ▸ hw)
  rwa [hn, hlen] at henc

theorem blk_of_encb (h : exec .encb s = .next t) (hkey : s.status.keyValid = true) :
    t.blk = encWords s.subkeys s.blk := by
  cases (execEncb_of_key hkey).symm.trans h
  rfl

theorem blk_of_decb (h : exec .decb s = .next t) (hkey : s.status.keyValid = true) :
    t.blk = decWords s.subkeys s.blk := by
  cases (execDecb_of_key hkey).symm.trans h
  rfl

/-! ### What the message commands leave (R148 to R150) -/

@[simp] theorem length_pad (p : List Byte) : (pad p).length = 16 * blockCount p.length := by
  have hle := le_mul_blockCount p.length
  simp only [pad, List.length_append, List.length_replicate]
  omega

/-- A command on one block writes the function of that block, in place or overlapping too. -/
theorem messageAt_blocksWritten_one (f : Block → Block) (src len dst : Nat) (m : Memory) :
    messageAt (blocksWritten f src len dst 1 m) dst 16 = wordsToBlock (f (blockToWords (messageAt m src len) 0)) :=
  (messageAt_blockWritten f src len dst 0 m).trans (by rw [blockToWords_message])

/-- Memory that holds a message's blocks, one after the other, holds the message. -/
theorem messageAt_eq_of_blocks {m : Memory} {a n : Nat} {p : List Byte} (hp : p.length = 16 * n)
    (h : ∀ k < n, m.readList (a + 16 * k) 16 = wordsToBlock (blockToWords p (16 * k))) :
    messageAt m a (16 * n) = p := by
  refine bytes_ext (by simp [messageAt, hp]) fun i hi => ?_
  have hi : i < 16 * n := by simpa [messageAt] using hi
  have hbyte := congrArg (·.getD (i % 16) 0) (h (i / 16) (by omega))
  have hlo : i % 16 < 16 := Nat.mod_lt _ (by decide)
  simp only [wordsToBlock_blockToWords, Memory.getD_readList, hlo, if_true, Nat.add_assoc, Nat.div_add_mod] at hbyte
  rw [messageAt, Memory.getD_readList, if_pos hi, hbyte]
  simp [List.getD_eq_getElem?_getD, hlo, byteAt, Nat.div_add_mod]

/-- A message command whose block function undoes the one before it leaves the padded message. -/
theorem messageAt_blocksWritten_inverse {f g : Block → Block} (hgf : ∀ x, g (f x) = x) (m : Memory)
    {src len mid dst : Nat} (hfirst : readsBeforeWrites src len mid)
    (hsecond : readsBeforeWrites mid (16 * blockCount len) dst) :
    messageAt (blocksWritten g mid (16 * blockCount len) dst (blockCount len)
      (blocksWritten f src len mid (blockCount len) m)) dst (16 * blockCount len) = pad (messageAt m src len) := by
  refine messageAt_eq_of_blocks (by simp [messageAt]) fun k hk => ?_
  rw [blocksWritten_block g _ hsecond _ k hk, bufferBlock_inside _ _ _ _ (by omega),
    blocksWritten_block f m hfirst _ k hk, blockToWords_wordsToBlock, hgf, blockToWords_padded]

end Sys2Proof.Machine
end

section
/-! SUPPORT. The statements of 42_block_cipher, settled. -/

open Sys2Proof Sys2Proof.Machine

/-- Settles O47: each round is R142's on the four words, and the whitening adds S[0], S[1], S[42] and S[43]. -/
theorem encWordsFollowsRounds : Obligations.EncWordsFollowsRounds := by
  intro S a b c d
  have hstart : (encStart S ⟨a, b, c, d⟩).words = (a, b + S[0], c, d + S[1]) := rfl
  rw [encWords, encEnd_eq_words, words_encRounds, hstart]
  unfold wordsRound roundCount
  with_reducible rfl

/-- Settles O48: each step of one direction is undone by its counterpart in the other. -/
theorem decryptionInvertsEncryption : Obligations.DecryptionInvertsEncryption :=
  fun S x => ⟨decWords_encWords S x, encWords_decWords S x⟩

/-- Settles O49: with a key the check passes; after ENCB the key is still valid, and DECB inverts the words. -/
theorem blockCommandsTransform : Obligations.BlockCommandsTransform := by
  intro s hkey
  refine ⟨eq_next_of_ended (execEncb_of_key hkey) hkey,
    eq_next_of_ended (execDecb_of_key hkey) hkey, fun t ht => ?inverse⟩
  case inverse =>
    cases (execEncb_of_key hkey).symm.trans ht
    exact ⟨_, execDecb_of_key hkey, decWords_encWords s.subkeys s.blk⟩

/-- Settles O50: the memory is the one with the blocks written, each the encryption of its padded block. -/
theorem encmEncryptsMessage : Obligations.EncmEncryptsMessage := by
  intro s hkey hlen hsrc hdst hr hw
  have hc : encmCheck s = none := (encmCheck_none_iff s).2 ⟨hkey, hlen, hsrc, hdst⟩
  refine ⟨_, eq_next_of_ended (execEncm_of_answers hc hr hw) hkey,
    sameOutside_blocksWritten _ _ _ s.mem (r := writtenRegion .encm s) le_rfl, fun hrw k hk => ?_⟩
  rw [← blockToWords_padded]
  exact blocksWritten_block _ s.mem hrw _ k hk

/-- Settles O51: the checks in order, then the access that does not complete, which frees the destination alone. -/
theorem encmErrors : Obligations.EncmErrors := by
  refine fun s hkey => ⟨fun hlong => ?invalidLength, fun hlen hout => ?addrRange,
    fun hlen hsrc hdst hdeny => ?busError⟩
  case invalidLength =>
    exact eq_next_of_ended (execEncm_of_check (encmCheck_eq_invalidLength hkey hlong)) hkey
  case addrRange =>
    exact eq_next_of_ended (execEncm_of_check (encmCheck_eq_addrRange hkey hlen hout)) hkey
  case busError =>
    have hc : encmCheck s = none := (encmCheck_none_iff s).2 ⟨hkey, hlen, hsrc, hdst⟩
    exact ⟨_, _, eq_next_of_ended (s := s.loseBytes (writtenRegion .encm s)) (execEncm_of_denies hc hdeny) hkey,
      State.loseBytes_sameOutside s _⟩

/-- Settles O52: the memory is the one with the blocks written, each the decryption of its block. -/
theorem decmDecryptsMessage : Obligations.DecmDecryptsMessage := by
  intro s hkey haligned hsrc hdst hr hw
  have hc : decmCheck s = none := (decmCheck_none_iff s).2 ⟨hkey, haligned, hsrc, hdst⟩
  have hblocks : 16 * (s.len.toNat / 16) = s.len.toNat := by omega
  refine ⟨_, eq_next_of_ended (execDecm_of_answers hc hr (hblocks.symm ▸ hw)) hkey,
    sameOutside_blocksWritten _ _ _ s.mem (r := writtenRegion .decm s) hblocks.le, fun hrw k hk => ?_⟩
  rw [← blockToWords_message]
  exact blocksWritten_block _ s.mem hrw _ k hk

/-- Settles O53: the checks in order, then the access that does not complete, which frees the destination alone. -/
theorem decmErrors : Obligations.DecmErrors := by
  refine fun s hkey => ⟨fun hpart => ?invalidLength, fun hwhole hout => ?addrRange,
    fun hwhole hsrc hdst hdeny => ?busError⟩
  case invalidLength =>
    exact eq_next_of_ended (execDecm_of_check (decmCheck_eq_invalidLength hkey hpart)) hkey
  case addrRange =>
    exact eq_next_of_ended (execDecm_of_check (decmCheck_eq_addrRange hkey hwhole hout)) hkey
  case busError =>
    have hc : decmCheck s = none := (decmCheck_none_iff s).2 ⟨hkey, hwhole, hsrc, hdst⟩
    exact ⟨_, _, eq_next_of_ended (s := s.loseBytes (writtenRegion .decm s)) (execDecm_of_denies hc hdeny) hkey,
      State.loseBytes_sameOutside s _⟩

/-- Settles O55: DECM finds LEN = OUT_LEN, a whole number of blocks, and each block decrypts to its padded block. -/
theorem decmAfterEncmGivesPaddedMessage : Obligations.DecmAfterEncmGivesPaddedMessage := by
  intro s d hkey hlen hsrc hmid hdst hrsrc hwmid hrmid hwdst hfirst hsecond
  have henc := execEncm_of_answers ((encmCheck_none_iff s).2 ⟨hkey, hlen, hsrc, hmid⟩) hrsrc hwmid
  have hout := toNat_encmOutLen hlen
  refine ⟨_, _, henc, execDecm_of_blocks hkey hout hmid hdst hrmid hwdst, rfl, hout, ?_⟩
  exact messageAt_blocksWritten_inverse (decWords_encWords s.subkeys) s.mem hfirst hsecond

/-- Settles O56: with LEN = 16 there is one block, and it is the one that the block registers hold. -/
theorem blockAndMessageCommandsAgree : Obligations.BlockAndMessageCommandsAgree := by
  intro s t u hkey hlen hsrc hdst hr hw ht hu
  refine ⟨_, _, execEncm_of_blocks (n := 1) hkey hlen hsrc hdst hr hw, ?encb,
    execDecm_of_blocks (n := 1) hkey hlen hsrc hdst hr hw, ?decb⟩
  case encb =>
    rw [blk_of_encb ht hkey]
    exact messageAt_blocksWritten_one _ _ _ _ _
  case decb =>
    rw [blk_of_decb hu hkey]
    exact messageAt_blocksWritten_one _ _ _ _ _

end

section
/-! SUPPORT. The life of a command (60_exceptions R182, R183, R190, R191): what every ending leaves to the host, a check
that fails, what is noted at command-start, and the turn of an idle engine. -/

namespace Sys2Proof.Machine

variable {i : Instr} {s t : State} {v : Word}

/-! ### What an ending leaves to the host (10_state R30, R31) -/

/-- What no command writes of that which the host set up: the operand registers, PENDING and the host's last read. -/
structure KeepsOperands (s t : State) : Prop where
  keyAddr : t.keyAddr = s.keyAddr
  keyLen : t.keyLen = s.keyLen
  srcAddr : t.srcAddr = s.srcAddr
  dstAddr : t.dstAddr = s.dstAddr
  len : t.len = s.len
  offset : t.offset = s.offset
  pending : t.pending = s.pending
  readData : t.readData = s.readData

theorem Ending.keepsOperands (h : Ending s i t) : KeepsOperands s t := by
  cases h <;> exact ⟨rfl, rfl, rfl, rfl, rfl, rfl, rfl, rfl⟩

/-! ### A check that fails (60_exceptions R183, R192) -/

/-- A check that fails ends the command with its code and nothing else; KSCHED gives up its key besides (R125). -/
theorem exec_of_check {e : ErrCode} (hi : i ≠ .ksched) (hc : commandCheck i s = some e) :
    exec i s = .next (s.ended e) := by
  cases i with
  | b2w => exact execB2w_of_check hc
  | w2b => exact execW2b_of_check hc
  | ksched => contradiction
  | encb => simp only [exec, execEncb, show encbCheck s = some e from hc, raise_eq]
  | decb => simp only [exec, execDecb, show decbCheck s = some e from hc, raise_eq]
  | encm => exact execEncm_of_check hc
  | decm => exact execDecm_of_check hc

/-- The check for a key is the first that the keyed commands make. -/
theorem commandCheck_eq_noKey (hi : i = .encb ∨ i = .decb ∨ i = .encm ∨ i = .decm)
    (hkey : s.status.keyValid = false) : commandCheck i s = some .noKey := by
  rcases hi with rfl | rfl | rfl | rfl
  · exact if_neg (by simp [hkey])
  · exact if_neg (by simp [hkey])
  · exact if_pos hkey
  · exact if_pos hkey

/-! ### The note of a started command (20_memory R60, R61, R64) -/

theorem raced_footprintOf (v : Word) (s : State) : (footprintOf v s).raced = false := by
  cases hd : decode v with
  | error e => rw [footprintOf_illegal hd]
  | ok i => rw [footprintOf_command hd]; split_ifs <;> rfl

theorem command_footprintOf (hd : decode v = .ok i) (s : State) : (footprintOf v s).command = some i := by
  rw [footprintOf_command hd]
  split_ifs <;> rfl

section Regions

variable {P : Prop} [Decidable P]

theorem reads_footprintOf (hd : decode v = .ok i) (hc : commandCheck i s = none ↔ P) :
    (footprintOf v s).reads = if P then readRegion i s else ⟨0, 0⟩ := by
  rw [footprintOf_command hd, apply_ite Footprint.reads, if_congr hc rfl rfl]

theorem writes_footprintOf (hd : decode v = .ok i) (hc : commandCheck i s = none ↔ P) :
    (footprintOf v s).writes = if P then writtenRegion i s else ⟨0, 0⟩ := by
  rw [footprintOf_command hd, apply_ite Footprint.writes, if_congr hc rfl rfl]

theorem regions_footprintOf (hd : decode v = .ok i) (hc : commandCheck i s = none ↔ P) :
    ((footprintOf v s).reads, (footprintOf v s).writes) =
      if P then (readRegion i s, writtenRegion i s) else (⟨0, 0⟩, ⟨0, 0⟩) := by
  rw [reads_footprintOf hd hc, writes_footprintOf hd hc, apply_ite₂ Prod.mk]

end Regions

theorem reads_footprintOf_empty (hd : decode v = .ok i) (hr : readRegion i s = ⟨0, 0⟩) :
    (footprintOf v s).reads = ⟨0, 0⟩ := by
  rw [reads_footprintOf hd Iff.rfl, hr, ite_self]

theorem writes_footprintOf_empty (hd : decode v = .ok i) (hw : writtenRegion i s = ⟨0, 0⟩) :
    (footprintOf v s).writes = ⟨0, 0⟩ := by
  rw [writes_footprintOf hd Iff.rfl, hw, ite_self]

/-- Of the commands only KSCHED gives up KEY_VALID at command-start (60_exceptions R190). -/
theorem keyValid_latchCommand (hd : decode v = .ok i) (hi : i ≠ .ksched) (s : State) :
    (latchCommand v s).status.keyValid = s.status.keyValid := by
  refine if_neg ?_
  rintro rfl
  exact hi (Except.ok.inj (hd.symm.trans (decode_encode .ksched)))

/-! ### The idle engine (60_exceptions R202) -/

theorem engineTurn_idle (hb : s.status.busy = false) : engineTurn s = .next s := by
  simp [engineTurn, hb]

end Sys2Proof.Machine
end

section
/-! SUPPORT. The statements of 60_exceptions, settled. -/

open Sys2Proof Sys2Proof.Machine

/-- Settles O6: the write is command-start, and the note's regions are those of the command whose check passes; only
for KSCHED is KEY_VALID not the one before, and its check does not look at it. -/
theorem commandStartWrites : Obligations.CommandStartWrites := by
  intro s v rest hb ha
  refine ⟨footprintOf v (latchCommand v { s with agenda := rest }), step_regWrite_idle hb ha, raced_footprintOf v _,
    fun e hd => ?illegal, fun i hd => command_footprintOf hd _, fun hd => ?b2w, fun hd => ?w2b, fun hd => ?ksched,
    fun hd => ?block, fun hd => ?encm, fun hd => ?decm⟩
  case illegal =>
    rw [footprintOf_illegal hd]
    exact ⟨rfl, rfl, rfl⟩
  case b2w => exact ⟨writes_footprintOf_empty hd rfl, reads_footprintOf hd (b2wCheck_none_iff _)⟩
  case w2b => exact ⟨reads_footprintOf_empty hd rfl, writes_footprintOf hd (w2bCheck_none_iff _)⟩
  case ksched => exact ⟨writes_footprintOf_empty hd rfl, reads_footprintOf hd (kschedCheck_none_iff _)⟩
  case block =>
    rcases hd with hd | hd
    · exact ⟨reads_footprintOf_empty hd rfl, writes_footprintOf_empty hd rfl⟩
    · exact ⟨reads_footprintOf_empty hd rfl, writes_footprintOf_empty hd rfl⟩
  case encm =>
    have hc := encmCheck_none_iff (latchCommand v { s with agenda := rest })
    rw [keyValid_latchCommand hd (by decide)] at hc
    exact regions_footprintOf hd hc
  case decm =>
    have hc := decmCheck_none_iff (latchCommand v { s with agenda := rest })
    rw [keyValid_latchCommand hd (by decide)] at hc
    exact regions_footprintOf hd hc

/-- Settles O7: whichever ending it has, a command completes and writes no operand. -/
theorem commandsCompleteAndKeepOperands : Obligations.CommandsCompleteAndKeepOperands := by
  intro i s
  obtain ⟨t, ht, hend⟩ := exec_ending i s
  obtain ⟨hkeyAddr, hkeyLen, hsrc, hdst, hlen, hoffset, hpending, hread⟩ := hend.keepsOperands
  exact ⟨t, ht, hend.busy, hend.done, hkeyAddr, hkeyLen, hsrc, hdst, hlen, hoffset, hend.platform, hpending,
    hend.agenda, hread, hend.unsynced⟩

/-- Settles O5: the engine's turn is the illegal ending, and no race is waiting to take effect after it. -/
theorem illegalCommandChangesOnlyStatus : Obligations.IllegalCommandChangesOnlyStatus := by
  intro s e hb hnext hrace hd
  have hturn := engineTurn_eq_illegal (s := s.turnTaken) hb hd
  rw [settle_illegal hrace] at hturn
  exact (step_eq_engine hnext).trans hturn

/-- Settles O9: the key is the first check of these commands, and a check that fails changes STATUS alone. -/
theorem noKeyEndsKeyedCommands : Obligations.NoKeyEndsKeyedCommands := by
  intro i s hi hkey
  have hne : i ≠ .ksched := by rintro rfl; simp at hi
  rw [exec_of_check hne (commandCheck_eq_noKey hi hkey), State.ended, hkey]

/-- Settles O10: the turn leaves the agenda, and the engine does nothing. -/
theorem idleEngineChangesNothing : Obligations.IdleEngineChangesNothing :=
  fun s hb hnext => (step_eq_engine hnext).trans (engineTurn_idle (s := s.turnTaken) hb)

end

section
/-! SUPPORT. A command in progress outlasts only a host's turn (70_reset R221), and what reset does to data memory
(70_reset R211). -/

namespace Sys2Proof.Machine

variable {s t : State}

/-! ### Progress (20_memory R63, 70_reset R221) -/

/-- A host's transaction with a busy block neither ends the command nor adds a turn: register writes are dropped
(10_state R44), reads answer, and data accesses reach outputs alone. -/
theorem hostAccess_busy (hb : s.status.busy = true) (op : HostOp) :
    (hostAccess op s).status = s.status ∧ (hostAccess op s).agenda = s.agenda := by
  cases op with
  | regWrite addr size v =>
    rw [hostAccess, hostRegWrite_busy hb]
    exact ⟨rfl, rfl⟩
  | regRead addr size =>
    obtain ⟨_, _, _, h⟩ := hostRegRead_shape addr size s
    rw [hostAccess, h]
    exact ⟨rfl, rfl⟩
  | memWrite a b =>
    obtain ⟨_, hout, -⟩ := hostDataAccess_effect (a := a) (b := b) (.inl rfl) s
    exact ⟨hout.status, hout.agenda⟩
  | memRead a =>
    obtain ⟨_, hout, -⟩ := hostDataAccess_effect (a := a) (b := 0) (.inr rfl) s
    exact ⟨hout.status, hout.agenda⟩

/-- Of the steps of a busy block only a host's turn leaves it busy: the engine's completes the command, and reset
abandons it. -/
theorem Stepped.host_of_busy (h : Stepped s t) (hb : s.status.busy = true) (ht : t.status.busy = true) :
    ∃ op, s.agenda = .host op :: t.agenda := by
  cases h with
  | idle hidle => exact absurd hb (by simp [hidle])
  | command _ _ _ hend => exact absurd ht (by simp [hend.completed.settled.busy])
  | illegal => exact absurd ht (by simp [(settle_effect _).1.status])
  | @host op hhead =>
    rw [(hostAccess_busy (s := s.turnTaken) hb op).2]
    exact ⟨op, List.eq_cons_of_mem_head? hhead⟩
  | reset => exact absurd ht (by simp [resetBlock, resetRegisters])

/-- A step of a busy block ends the command, or takes a host's turn and leaves it in progress. -/
theorem step_busy (hb : s.status.busy = true) : ∃ t, step s = .next t ∧
    (t.status.busy = false ∨ t.status.busy = true ∧ ∃ op, s.agenda = .host op :: t.agenda) := by
  obtain ⟨t, hstep⟩ := step_safe s
  refine ⟨t, hstep, ?_⟩
  cases ht : t.status.busy with
  | false => exact .inl rfl
  | true => exact .inr ⟨rfl, (stepped_of_step hstep).host_of_busy hb ht⟩

/-! ### Reset and data memory (70_reset R211) -/

theorem resetBlock_agenda (s : State) : (resetBlock s).agenda = s.agenda := by
  unfold resetBlock abandon
  split_ifs <;> rfl

theorem resetBlock_mem_idle (hb : s.status.busy = false) : (resetBlock s).mem = s.mem := by
  simp [resetBlock, resetRegisters, abandon, hb]

/-- Reset while a command is in progress loses bytes of its written region alone. -/
theorem resetBlock_mem_command {i : Instr} (hb : s.status.busy = true) (hd : decode s.pending = .ok i) :
    sameOutside (writtenRegion i s) s.mem (resetBlock s).mem := by
  have habandon : abandon s = s.loseBytes (writtenRegion i s) := by simp [abandon, abandonedRegion, hb, hd]
  rw [resetBlock, habandon]
  exact State.loseBytes_sameOutside s _

/-- An illegal word has no written region, so reset loses no byte. -/
theorem resetBlock_mem_illegal {e : Illegal} (hb : s.status.busy = true) (hd : decode s.pending = .error e) :
    (resetBlock s).mem = s.mem := by
  simp [resetBlock, resetRegisters, abandon, abandonedRegion, hb, hd, clipRegion, Memory.scramble]

/-- The written region is computed from the operand registers, not from the turns to come. -/
theorem writtenRegion_agenda (i : Instr) (s : State) (turns : List Turn) :
    writtenRegion i { s with agenda := turns } = writtenRegion i s := by
  cases i <;> rfl

end Sys2Proof.Machine
end

section
/-! SUPPORT. The statements of 70_reset, settled. -/

open Sys2Proof Sys2Proof.Machine

/-- Settles O12, by induction on the turns left: a step ends the command or uses up one host's turn, and with none left
the engine moves. -/
theorem startedCommandEnds : Obligations.StartedCommandEnds := by
  intro s hb
  induction hagenda : s.agenda generalizing s with
  | nil =>
    obtain ⟨t, hstep, hdone | ⟨-, op, hhost⟩⟩ := step_busy hb
    · exact ⟨1, t, le_rfl, run_succ 0 hstep, hdone⟩
    · simp [hagenda] at hhost
  | cons turn rest ih =>
    obtain ⟨t, hstep, hdone | ⟨hbusy, op, hhost⟩⟩ := step_busy hb
    · exact ⟨1, t, Nat.le_add_left 1 _, run_succ 0 hstep, hdone⟩
    · obtain ⟨-, hrest⟩ := List.cons.inj (hagenda.symm.trans hhost)
      obtain ⟨k, u, hk, hrun, hdone⟩ := ih t hbusy hrest.symm
      exact ⟨k + 1, u, Nat.succ_le_succ hk, (run_succ k hstep).trans hrun, hdone⟩

/-- Settles O16: the registers take their values whatever stood in them, and memory loses bytes of the abandoned
command's written region alone. -/
theorem resetTurnValues : Obligations.ResetTurnValues := by
  intro s rest ha
  refine ⟨resetBlock { s with agenda := rest }, step_eq_cons ha, resetBlock_agenda _, resetBlock_platform _, rfl, rfl,
    rfl, rfl, rfl, rfl, rfl, rfl, rfl, rfl, fun hb => ?idle, fun i hb hd => ?command, fun e hb hd => ?illegal⟩
  case idle => exact resetBlock_mem_idle (s := { s with agenda := rest }) hb
  case command =>
    rw [← writtenRegion_agenda i s rest]
    exact resetBlock_mem_command (s := { s with agenda := rest }) hb hd
  case illegal => exact resetBlock_mem_illegal (s := { s with agenda := rest }) hb hd

end
